-- ==== Sys2Proof/Word.lean ====
section
/-! DEFINITION. The two word types of the core (00_scope.md R6, R8). -/

namespace Sys2Proof

/-- A byte: `A`, `B`, `Out`, one cell of RAM, one instruction (R6). Bit 7 is the most significant (R8). -/
abbrev Byte := BitVec 8

/-- A nibble: `PC`, an address of RAM, the opcode field, the operand field (R6). Bit 3 is the most significant (R8). -/
abbrev Nibble := BitVec 4

end Sys2Proof
end

