-- ==== Sys2Proof/Machine/Flags.lean ====
section
/-! DEFINITION. Sums, differences and the two flags (42_arithmetic.md R110 to R116). Operands are unsigned (00_scope.md R9). -/

namespace Sys2Proof.Machine

/-- `A + m`, exact: 0 to 510 (R113). -/
def exactSum (a m : Byte) : Nat := a.toNat + m.toNat

/-- `A - m`, exact: -255 to 255 (R115). -/
def exactDifference (a m : Byte) : Int := (a.toNat : Int) - (m.toNat : Int)

/-- `(A + m) mod 256` (R113, R116). -/
def wrappedSum (a m : Byte) : Byte := BitVec.ofNat 8 (exactSum a m)

/-- `(A - m) mod 256` (R115, R116). -/
def wrappedDifference (a m : Byte) : Byte := BitVec.ofInt 8 (exactDifference a m)

/-- `C` after ADD and ADI: the unbounded sum exceeds 255 (R111). -/
def carryOut (a m : Byte) : Bool := decide (255 < exactSum a m)

/-- `C` after SUB: no borrow is needed (R112). -/
def noBorrow (a m : Byte) : Bool := decide (m.toNat ≤ a.toNat)

/-- `Z` after ADD, ADI and SUB: the 8-bit result is 0 (R110). -/
def zeroOf (r : Byte) : Bool := r == 0x00

end Sys2Proof.Machine
end

