-- ==== Sys2Proof/Config.lean ====
section
/-! DEFINITION. The fixed sizes of the core (00_scope.md R6). The spec leaves no value open (R7, R33), so there is no free
value here; `image` and `stepBudget` (R7) are arguments of the functions that take them. -/

namespace Sys2Proof.Config

/-- RAM holds 16 bytes, at addresses 0 to 15 (R6, R40). -/
def memoryBytes : Nat := 16

/-- The shortest image the host admits (R6, R164). -/
def minImageLength : Nat := 1

/-- The longest image the host admits (R6, R164). -/
def maxImageLength : Nat := 16

end Sys2Proof.Config
end

