-- ==== Sys2Proof/Syntax.lean ====
section
/-! DEFINITION. The 16 instructions (30_encoding.md R61), and the source-level syntax around them: program entries the host
loads (70_reset_and_hazards.md R164) and lines of assembly (30_encoding.md R69, R71). -/

namespace Sys2Proof

/-- The 16 rows of the opcode map (R61), named by their mnemonics. -/
inductive Opcode where
  | nop | lda | ldb | sta | add | adi | jmp | jmpv | jc | jz | out | movaB | movbA | ldi | sub | hlt
deriving DecidableEq, Repr

/-- An instruction: its opcode with its operand nibble `n = ir[3:0]` (R12, R60, R61). The five instructions whose operand
is ignored (R65) keep the nibble, so that the 256 bytes and the instructions correspond one to one (R60; DESIGN CHOICE, log 12). -/
inductive Instr where
  /-- 0x0 NOP, operand ignored (R130). -/
  | nop (n : Nibble)
  /-- 0x1 LDA, operand an address (R100). -/
  | lda (n : Nibble)
  /-- 0x2 LDB, operand an address (R101). -/
  | ldb (n : Nibble)
  /-- 0x3 STA, operand an address (R102). -/
  | sta (n : Nibble)
  /-- 0x4 ADD, operand an address (R113). -/
  | add (n : Nibble)
  /-- 0x5 ADI, operand an immediate (R114). -/
  | adi (n : Nibble)
  /-- 0x6 JMP, operand a target (R120). -/
  | jmp (n : Nibble)
  /-- 0x7 JMPV, operand the address of the target (R121). -/
  | jmpv (n : Nibble)
  /-- 0x8 JC, operand a target (R122). -/
  | jc (n : Nibble)
  /-- 0x9 JZ, operand a target (R123). -/
  | jz (n : Nibble)
  /-- 0xA OUT, operand ignored (R131). -/
  | out (n : Nibble)
  /-- 0xB MOVA_B, operand ignored (R103). -/
  | movaB (n : Nibble)
  /-- 0xC MOVB_A, operand ignored (R104). -/
  | movbA (n : Nibble)
  /-- 0xD LDI, operand an immediate (R105). -/
  | ldi (n : Nibble)
  /-- 0xE SUB, operand an address (R115). -/
  | sub (n : Nibble)
  /-- 0xF HLT, operand ignored (R132). -/
  | hlt (n : Nibble)
deriving DecidableEq, Repr

/-- A program entry as the host's catalog declares it (R164): a declared length beside the bytes. -/
structure ProgramEntry where
  declaredLength : Nat
  bytes : List Byte
deriving DecidableEq, Repr

/-- The operand of a line of assembly: a number or a label (R69). -/
inductive AsmOperand where
  | number (v : Nat)
  | label (name : String)
deriving DecidableEq, Repr

/-- What a line of assembly places at the current address (R69, R71). -/
inductive AsmItem where
  /-- `MNEMONIC` or `MNEMONIC operand` (R69). -/
  | instruction (op : Opcode) (operand : Option AsmOperand)
  /-- `.byte v` (R71). -/
  | byte (v : Nat)
deriving DecidableEq, Repr

/-- A line of assembly: the labels that stand at its start, then the one byte it places (R71). That there may be more than one
label is a DESIGN CHOICE, log 13. -/
structure AsmLine where
  labels : List String
  item : AsmItem
deriving DecidableEq, Repr

end Sys2Proof
end

