-- ==== Sys2Proof/WellFormed.lean ====
section
/-! DEFINITION. What a term must satisfy before the host or the assembler uses it. An `Instr` needs no check: its operand is
4 bits by its type and every operand of every opcode is defined (30_encoding.md R60, R65, R66; DESIGN CHOICE, log 12). -/

namespace Sys2Proof

/-- The declared length is the true length (R164: an entry whose "declared length mismatches actual bytes" is refused). -/
abbrev ProgramEntry.LengthIsTrue (e : ProgramEntry) : Prop := e.declaredLength = e.bytes.length

/-- The length is 1 to 16 (R164). -/
abbrev ProgramEntry.LengthInRange (e : ProgramEntry) : Prop :=
  Config.minImageLength ≤ e.bytes.length ∧ e.bytes.length ≤ Config.maxImageLength

/-- The host admits an entry exactly when both hold (R164). -/
abbrev ProgramEntry.Admitted (e : ProgramEntry) : Prop := e.LengthIsTrue ∧ e.LengthInRange

/-- The opcodes written with no operand in assembly: those whose operand is ignored (R69). -/
def Opcode.takesOperand : Opcode → Bool
  | .nop | .out | .movaB | .movbA | .hlt => false
  | .lda | .ldb | .sta | .add | .adi | .jmp | .jmpv | .jc | .jz | .ldi | .sub => true

/-- A written number fits the 4-bit field; one that does not is an assembly error, never reduced mod 16 (R69). -/
abbrev AsmOperand.Fits : AsmOperand → Prop
  | .number v => v < 16
  | .label _ => True

/-- A line is well formed when the operand is there exactly for the opcodes that take one and fits (R69), and when the
value of `.byte` is 0 to 255 (R71). -/
abbrev AsmItem.WellFormed : AsmItem → Prop
  | .instruction op none => op.takesOperand = false
  | .instruction op (some v) => op.takesOperand = true ∧ v.Fits
  | .byte v => v < 256

end Sys2Proof
end

