-- ==== Sys2Proof/Decode.lean ====
section
/-! DEFINITION. The decoder and the encoder (30_encoding.md R60 to R68). Decoding is total on the 256 bytes and refuses none:
the spec has no illegal, reserved or undefined encoding (R66, R68). -/

namespace Sys2Proof

/-- `op = ir[7:4]` (R12, R60). -/
def opcodeField (ir : Byte) : Nibble := ir.extractLsb' 4 4

/-- `n = ir[3:0]` (R12, R60). -/
def operandField (ir : Byte) : Nibble := ir.extractLsb' 0 4

/-- The byte `(op * 16) + n` (R9, R60). -/
def joinFields (op n : Nibble) : Byte := BitVec.ofNat 8 (op.toNat * 16 + n.toNat)

/-- The row of the opcode map that bits 7:4 select, bit by bit as R61 writes them. -/
def opcodeOfBits (op : Nibble) : Opcode :=
  match op.getLsbD 3, op.getLsbD 2, op.getLsbD 1, op.getLsbD 0 with
  | false, false, false, false => .nop
  | false, false, false, true => .lda
  | false, false, true, false => .ldb
  | false, false, true, true => .sta
  | false, true, false, false => .add
  | false, true, false, true => .adi
  | false, true, true, false => .jmp
  | false, true, true, true => .jmpv
  | true, false, false, false => .jc
  | true, false, false, true => .jz
  | true, false, true, false => .out
  | true, false, true, true => .movaB
  | true, true, false, false => .movbA
  | true, true, false, true => .ldi
  | true, true, true, false => .sub
  | true, true, true, true => .hlt

/-- The instruction of an opcode and an operand: `execute[op]` takes `n` whatever `op` is (R68, R86). -/
def instrOf (op : Opcode) (n : Nibble) : Instr :=
  match op with
  | .nop => .nop n
  | .lda => .lda n
  | .ldb => .ldb n
  | .sta => .sta n
  | .add => .add n
  | .adi => .adi n
  | .jmp => .jmp n
  | .jmpv => .jmpv n
  | .jc => .jc n
  | .jz => .jz n
  | .out => .out n
  | .movaB => .movaB n
  | .movbA => .movbA n
  | .ldi => .ldi n
  | .sub => .sub n
  | .hlt => .hlt n

/-- The decoder: `decode(ir) = (op, n)`, total (R68). -/
def decode (ir : Byte) : Instr := instrOf (opcodeOfBits (opcodeField ir)) (operandField ir)

/-- The byte of an instruction, from the "Encoding" line of each instruction's own rule (R100 to R105, R113 to R115,
R120 to R123, R130 to R132). -/
def encode : Instr → Byte
  | .nop n => joinFields 0b0000#4 n
  | .lda n => joinFields 0b0001#4 n
  | .ldb n => joinFields 0b0010#4 n
  | .sta n => joinFields 0b0011#4 n
  | .add n => joinFields 0b0100#4 n
  | .adi n => joinFields 0b0101#4 n
  | .jmp n => joinFields 0b0110#4 n
  | .jmpv n => joinFields 0b0111#4 n
  | .jc n => joinFields 0b1000#4 n
  | .jz n => joinFields 0b1001#4 n
  | .out n => joinFields 0b1010#4 n
  | .movaB n => joinFields 0b1011#4 n
  | .movbA n => joinFields 0b1100#4 n
  | .ldi n => joinFields 0b1101#4 n
  | .sub n => joinFields 0b1110#4 n
  | .hlt n => joinFields 0b1111#4 n

/-- The opcode of an instruction. -/
def opcodeOf : Instr → Opcode
  | .nop _ => .nop
  | .lda _ => .lda
  | .ldb _ => .ldb
  | .sta _ => .sta
  | .add _ => .add
  | .adi _ => .adi
  | .jmp _ => .jmp
  | .jmpv _ => .jmpv
  | .jc _ => .jc
  | .jz _ => .jz
  | .out _ => .out
  | .movaB _ => .movaB
  | .movbA _ => .movbA
  | .ldi _ => .ldi
  | .sub _ => .sub
  | .hlt _ => .hlt

/-- The operand nibble of an instruction (R12). -/
def operandOf : Instr → Nibble
  | .nop n | .lda n | .ldb n | .sta n | .add n | .adi n | .jmp n | .jmpv n
  | .jc n | .jz n | .out n | .movaB n | .movbA n | .ldi n | .sub n | .hlt n => n

/-- The byte the core stores for a table word of `nbits` bits: its bits above `nbits` are 0, and an instruction is one byte
(R67), so only bits 7:0 are ever read (DESIGN CHOICE, log 17). -/
def tableByte (nbits w : Nat) : Byte := BitVec.ofNat 8 (w % 2 ^ nbits)

/-- What the decoder reads from a table word. It refuses none (R66). -/
def decodeTableWord (nbits w : Nat) : Option Instr := some (decode (tableByte nbits w))

end Sys2Proof
end

