-- ==== Sys2Proof/Machine/Operands.lean ====
section
/-! DEFINITION. The four ways an operand is read (30_encoding.md R62 to R65), and the bits of a byte that become an address. -/

namespace Sys2Proof.Machine

/-- How an opcode reads its operand (R62). -/
inductive OperandKind where
  | address | addressOfTarget | target | immediate | ignored
deriving DecidableEq, Repr

/-- The operand kind of each row of R61. -/
def operandKind : Opcode → OperandKind
  | .lda | .ldb | .sta | .add | .sub => .address
  | .jmpv => .addressOfTarget
  | .jmp | .jc | .jz => .target
  | .adi | .ldi => .immediate
  | .nop | .out | .movaB | .movbA | .hlt => .ignored

/-- `zext_8(v)` for a 4-bit `v` (R11). -/
def zext8 (v : Nibble) : Byte := v.setWidth 8

/-- The effective address of a data access is the operand itself (R43). -/
def effectiveAddress (n : Nibble) : Nibble := n

/-- The value of an immediate, zero-extended (R63). -/
def immediateByte (n : Nibble) : Byte := zext8 n

/-- The target of JMP, JC and JZ is the operand itself, absolute (R64). -/
def directTarget (n : Nibble) : Nibble := n

/-- `t mod 16`: the low four bits of the byte JMPV reads (R121, the spec's decision D4; DEDUCED, log 5). -/
def indirectTarget (t : Byte) : Nibble := t.setWidth 4

end Sys2Proof.Machine
end

