-- ==== Sys2Proof/Machine/State.lean ====
section
/-! DEFINITION. The state of the core (10_state.md R20), the reasons a move can stop, and the state after reset. -/

namespace Sys2Proof.Machine

/-- RAM as (address, byte) pairs in one canonical form: `Memory.wf` in Machine/Ops.lean says which, and what an unlisted
address reads as. The addresses of a well-formed memory are 0 to 15 (R40). -/
abbrev Memory := List Host.Cell

/-- The architectural state: the eight items of R20, and the output trace of the run (R131, R34; DEDUCED, log 4). -/
structure State where
  /-- `A`, the accumulator (R21). -/
  a : Byte
  /-- `B`, the auxiliary register (R22). -/
  b : Byte
  /-- `C`, the carry flag, 1 as `true` (R26; DEDUCED, log 18). -/
  c : Bool
  /-- `Z`, the zero flag, 1 as `true` (R27; DEDUCED, log 18). -/
  z : Bool
  /-- `PC`, the address of the current instruction (R24). -/
  pc : Nibble
  /-- `Out`, the output latch (R29). -/
  out : Byte
  /-- `Halted`, 1 as `true` (R30; DEDUCED, log 18). -/
  halted : Bool
  /-- `RAM[0..15]` (R40). -/
  ram : Memory
  /-- The output trace: the values OUT emitted in this run, oldest first (R131; DEDUCED, log 4). -/
  trace : List Byte
deriving DecidableEq, Repr

/-- The reasons the core stops with a fault. There is none: "No step faults, traps or stops with an error" (60_exceptions.md
R140), so the type has no constructor, and nothing raises one (DEDUCED, log 14; safe). -/
inductive Fault : Type
deriving DecidableEq, Repr

/-- The reasons a move is refused. No step of the core answers with one. -/
inductive Refusal where
  /-- An instruction without a meaning, by its mnemonic. Raised by no arm of `exec`; safe: it stops the machine. -/
  | notModelled (mnemonic : String)
  /-- The host's load or `runImage` was given an entry the host must refuse (R164). Safe: no run starts. -/
  | imageNotAdmitted
  /-- The host's load came while the core was not held in reset, which R58 and R165 forbid the host (DESIGN CHOICE, log 11). Safe. -/
  | loadOutsideReset
  /-- The host released reset before it loaded an image, against the order of R165 and R167 (DESIGN CHOICE, log 11). Safe. -/
  | releaseBeforeLoad
  /-- The executor was given a step budget of 0, and R7 asks for a positive one (DESIGN CHOICE, log 16). Safe: nothing runs. -/
  | budgetNotPositive
deriving DecidableEq, Repr

/-- The machine right after reset (R160): every register at the value of R20. Reset does not write RAM (R162) and no image is
part of it, so no cell is listed and every byte reads 0x00 (DESIGN CHOICE, log 1). -/
def State.reset : State where
  a := 0x00
  b := 0x00
  c := false
  z := false
  pc := 0
  out := 0x00
  halted := false
  ram := []
  trace := []

end Sys2Proof.Machine
end

