-- ==== Sys2Proof/Machine/Ops.lean ====
section
/-! DEFINITION. The named operations over memory and registers. There is no operation that takes an exception or returns from
one: the core has neither (60_exceptions.md R140, R145, R146; DEDUCED, log 14). -/

namespace Sys2Proof.Machine

/-! Memory (20_memory.md R40 to R49). -/

/-- What an address that no entry lists reads as: its start value 0x00 (R48, R49, R163; DESIGN CHOICE, log 1). -/
def Memory.unlisted : Byte := 0x00

/-- The one canonical form: addresses strictly rising, each inside the 16-byte RAM (R40), no entry equal to what an unlisted
address reads as. -/
abbrev Memory.wf (m : Memory) : Prop :=
  m.Pairwise (fun p q => p.1 < q.1) ∧ ∀ p ∈ m, p.1 < Config.memoryBytes ∧ p.2 ≠ Memory.unlisted

/-- The byte listed at an address, or the start value. -/
def Memory.lookup (k : Nat) : List Host.Cell → Byte
  | [] => Memory.unlisted
  | p :: rest => if p.1 = k then p.2 else Memory.lookup k rest

/-- Every entry but those at an address. -/
def Memory.erase (k : Nat) (m : List Host.Cell) : List Host.Cell := m.filter (fun p => p.1 != k)

/-- An entry put before the first larger address. -/
def Memory.place (k : Nat) (v : Byte) : List Host.Cell → List Host.Cell
  | [] => [(k, v)]
  | p :: rest => if k < p.1 then (k, v) :: p :: rest else p :: Memory.place k v rest

/-- `RAM[addr]` (R49). -/
def Memory.read (m : Memory) (addr : Nibble) : Byte := Memory.lookup addr.toNat m

/-- `RAM[addr] <- v` (R49); writing the start value removes the entry. -/
def Memory.write (m : Memory) (addr : Nibble) (v : Byte) : Memory :=
  if v = Memory.unlisted then Memory.erase addr.toNat m
  else Memory.place addr.toNat v (Memory.erase addr.toNat m)

/-- `MemRead(addr, 1)` (R11). -/
def memRead (s : State) (addr : Nibble) : Byte := s.ram.read addr

/-- `MemWrite(addr, 1, v)` (R11). -/
def memWrite (s : State) (addr : Nibble) (v : Byte) : State := { s with ram := s.ram.write addr v }

/-- `Fetch(pc)`: the byte at `PC` (R11, R81). -/
def fetch (s : State) : Byte := memRead s s.pc

/-! Registers, flags, latch (10_state.md). -/

/-- `A <- v` (R21). -/
def setA (s : State) (v : Byte) : State := { s with a := v }

/-- `B <- v` (R22). -/
def setB (s : State) (v : Byte) : State := { s with b := v }

/-- `C <- c` and `Z <- z`, as ADD, ADI and SUB write them (R110 to R112). -/
def setFlags (s : State) (c z : Bool) : State := { s with c := c, z := z }

/-- `Out <- v` and `emit Output(v)`: the latch keeps the last value, the trace gets one event more (R131; DEDUCED, log 4). -/
def emitOutput (s : State) (v : Byte) : State := { s with out := v, trace := s.trace ++ [v] }

/-- `halt`: `Halted <- 1` (R11, R132). -/
def setHalted (s : State) : State := { s with halted := true }

/-! The PC update (40_cycle.md R83 to R85). -/

/-- `next = (PC + 1) mod 16` (R83, R85). -/
def nextAddress (s : State) : Nibble := s.pc + 1

/-- `PC <- target`. -/
def jumpTo (s : State) (target : Nibble) : State := { s with pc := target }

/-- `PC <- next`. -/
def advance (s : State) : State := jumpTo s (nextAddress s)

/-- `if cond then PC <- target else PC <- next` (R122, R123). -/
def branchIf (s : State) (cond : Bool) (target : Nibble) : State :=
  if cond then jumpTo s target else advance s

/-! Arithmetic into `A` (42_arithmetic.md). -/

/-- `A <- (A + m) mod 256` with the flags of R110 and R111 (R113, R114). -/
def addToA (s : State) (m : Byte) : State :=
  let r := wrappedSum s.a m
  setFlags (setA s r) (carryOut s.a m) (zeroOf r)

/-- `A <- (A - m) mod 256` with the flags of R110 and R112, both of `A` before the write (R115). -/
def subFromA (s : State) (m : Byte) : State :=
  let r := wrappedDifference s.a m
  setFlags (setA s r) (noBorrow s.a m) (zeroOf r)

/-! Reset (70_reset_and_hazards.md). -/

/-- Reset: every register at its reset value (R160), RAM kept (R162), the trace of the old run dropped (R131, D21; DEDUCED, log 19). -/
def applyReset (s : State) : State :=
  { s with a := 0x00, b := 0x00, c := false, z := false, pc := 0, out := 0x00, halted := false, trace := [] }

end Sys2Proof.Machine
end

