-- ==== Sys2Proof/Machine/Arithmetic.lean ====
section
/-! DEFINITION. The arithmetic instructions (42_arithmetic.md R113 to R115), the only ones that write `C` and `Z`. -/

namespace Sys2Proof.Machine

/-- ADD: `A <- A + RAM[addr]` with its flags (R113). -/
def execAdd (n : Nibble) (s : State) : Host.Outcome State Fault Refusal :=
  .next (advance (addToA s (memRead s (effectiveAddress n))))

/-- ADI: `A <- A + zext_8(imm)` with its flags (R114). -/
def execAdi (n : Nibble) (s : State) : Host.Outcome State Fault Refusal :=
  .next (advance (addToA s (immediateByte n)))

/-- SUB: `A <- A - RAM[addr]` with its flags (R115). -/
def execSub (n : Nibble) (s : State) : Host.Outcome State Fault Refusal :=
  .next (advance (subFromA s (memRead s (effectiveAddress n))))

end Sys2Proof.Machine
end

