-- ==== Sys2Proof/Machine/Control.lean ====
section
/-! DEFINITION. The control transfer instructions (43_control.md R120 to R123). They write `PC` and nothing else. -/

namespace Sys2Proof.Machine

/-- JMP: `PC <- target` (R120). -/
def execJmp (n : Nibble) (s : State) : Host.Outcome State Fault Refusal :=
  .next (jumpTo s (directTarget n))

/-- JMPV: `PC <- RAM[addr] mod 16` (R121; DEDUCED, log 5). -/
def execJmpv (n : Nibble) (s : State) : Host.Outcome State Fault Refusal :=
  .next (jumpTo s (indirectTarget (memRead s (effectiveAddress n))))

/-- JC: jump if `C`, else `PC <- next` (R122). -/
def execJc (n : Nibble) (s : State) : Host.Outcome State Fault Refusal :=
  .next (branchIf s s.c (directTarget n))

/-- JZ: jump if `Z`, else `PC <- next` (R123). -/
def execJz (n : Nibble) (s : State) : Host.Outcome State Fault Refusal :=
  .next (branchIf s s.z (directTarget n))

end Sys2Proof.Machine
end

