-- ==== Sys2Proof/Machine/System.lean ====
section
/-! DEFINITION. No-operation, output and halt (44_system.md R130 to R132). Their operand is ignored (30_encoding.md R65). -/

namespace Sys2Proof.Machine

/-- NOP: nothing but `PC <- next` (R130). -/
def execNop (_n : Nibble) (s : State) : Host.Outcome State Fault Refusal :=
  .next (advance s)

/-- OUT: `Out <- A`, one event of the output trace (R131; DEDUCED, log 4). -/
def execOut (_n : Nibble) (s : State) : Host.Outcome State Fault Refusal :=
  .next (advance (emitOutput s s.a))

/-- HLT: `Halted <- 1`, and `PC <- next` (R132, the spec's decision D7; DEDUCED, log 6). -/
def execHlt (_n : Nibble) (s : State) : Host.Outcome State Fault Refusal :=
  .next (advance (setHalted s))

end Sys2Proof.Machine
end

