-- ==== Sys2Proof/Machine/Transfer.lean ====
section
/-! DEFINITION. The data transfer instructions (41_transfer.md R100 to R105). None writes `C` or `Z`. -/

namespace Sys2Proof.Machine

/-- LDA: `A <- MemRead(addr, 1)` (R100). -/
def execLda (n : Nibble) (s : State) : Host.Outcome State Fault Refusal :=
  .next (advance (setA s (memRead s (effectiveAddress n))))

/-- LDB: `B <- MemRead(addr, 1)` (R101). -/
def execLdb (n : Nibble) (s : State) : Host.Outcome State Fault Refusal :=
  .next (advance (setB s (memRead s (effectiveAddress n))))

/-- STA: `MemWrite(addr, 1, A)` (R102). -/
def execSta (n : Nibble) (s : State) : Host.Outcome State Fault Refusal :=
  .next (advance (memWrite s (effectiveAddress n) s.a))

/-- MOVA_B: `A <- B`; the operand is ignored (R103, R65). -/
def execMovaB (_n : Nibble) (s : State) : Host.Outcome State Fault Refusal :=
  .next (advance (setA s s.b))

/-- MOVB_A: `B <- A`; the operand is ignored (R104, R65). -/
def execMovbA (_n : Nibble) (s : State) : Host.Outcome State Fault Refusal :=
  .next (advance (setB s s.a))

/-- LDI: `A <- zext_8(imm)` (R105). -/
def execLdi (n : Nibble) (s : State) : Host.Outcome State Fault Refusal :=
  .next (advance (setA s (immediateByte n)))

end Sys2Proof.Machine
end

