-- ==== Sys2Proof/Machine/Dispatch.lean ====
section
/-! DEFINITION. One arm per constructor of Instr: the `execute[op](n, next)` of 40_cycle.md R86. -/

namespace Sys2Proof.Machine

def exec (i : Instr) (s : State) : Host.Outcome State Fault Refusal :=
  match i with
  | .nop n => Sys2Proof.Machine.execNop n s
  | .lda n => Sys2Proof.Machine.execLda n s
  | .ldb n => Sys2Proof.Machine.execLdb n s
  | .sta n => Sys2Proof.Machine.execSta n s
  | .add n => Sys2Proof.Machine.execAdd n s
  | .adi n => Sys2Proof.Machine.execAdi n s
  | .jmp n => Sys2Proof.Machine.execJmp n s
  | .jmpv n => Sys2Proof.Machine.execJmpv n s
  | .jc n => Sys2Proof.Machine.execJc n s
  | .jz n => Sys2Proof.Machine.execJz n s
  | .out n => Sys2Proof.Machine.execOut n s
  | .movaB n => Sys2Proof.Machine.execMovaB n s
  | .movbA n => Sys2Proof.Machine.execMovbA n s
  | .ldi n => Sys2Proof.Machine.execLdi n s
  | .sub n => Sys2Proof.Machine.execSub n s
  | .hlt n => Sys2Proof.Machine.execHlt n s

end Sys2Proof.Machine
end

