-- ==== Sys2Proof/Machine/Step.lean ====
section
/-! DEFINITION. One step of the core (40_cycle.md R80 to R87), and the state the host's check runs one instruction from. -/

namespace Sys2Proof.Machine

/-- One step. While `Halted = 0`: fetch at `PC`, decode, execute (R81, R82, R86). While `Halted = 1` the core takes no step
and "stays in that state until a reset" (R80, R153): the state is answered unchanged (DESIGN CHOICE, log 3). -/
def step (s : State) : Host.Outcome State Fault Refusal :=
  if s.halted then .next s else exec (decode (fetch s)) s

/-- `s` with the table word's byte in RAM at `PC`, and not halted, so that the next step runs it (DESIGN CHOICE, log 2). -/
def State.withFetchWord (s : State) (nbits w : Nat) : State :=
  { memWrite s s.pc (tableByte nbits w) with halted := false }

end Sys2Proof.Machine
end

