-- ==== Sys2Proof/Machine/Assembler.lean ====
section
/-! DEFINITION. The assembler's syntax and the disassembler (30_encoding.md R69 to R71, the spec's own, decision D17). No rule
of execution reads it: the core decodes bytes (DESIGN CHOICE, log 13). -/

namespace Sys2Proof.Machine

/-- The 16 spellings of R61, exactly as given (R69). -/
def spelling : Opcode → String
  | .nop => "NOP"
  | .lda => "LDA"
  | .ldb => "LDB"
  | .sta => "STA"
  | .add => "ADD"
  | .adi => "ADI"
  | .jmp => "JMP"
  | .jmpv => "JMPV"
  | .jc => "JC"
  | .jz => "JZ"
  | .out => "OUT"
  | .movaB => "MOVA_B"
  | .movbA => "MOVB_A"
  | .ldi => "LDI"
  | .sub => "SUB"
  | .hlt => "HLT"

/-- The opcodes in the order of R61. -/
def allOpcodes : List Opcode :=
  [.nop, .lda, .ldb, .sta, .add, .adi, .jmp, .jmpv, .jc, .jz, .out, .movaB, .movbA, .ldi, .sub, .hlt]

/-- Why a text is no program (R69, R71, R164; DESIGN CHOICE, log 13 for the names and for the cases the spec does not list). -/
inductive AsmError where
  /-- A word that is no mnemonic, no directive, no number where one must stand, or a word too many (R69). -/
  | malformedLine
  /-- An operand that does not fit in 4 bits (R69). -/
  | operandTooLarge
  /-- LDA, LDB, STA, ADD, ADI, JMP, JMPV, JC, JZ, LDI or SUB without an operand (R69). -/
  | operandMissing
  /-- NOP, OUT, MOVA_B, MOVB_A or HLT with an operand (R69). -/
  | operandNotTaken
  /-- `.byte` of a value above 255 (R71). -/
  | byteTooLarge
  /-- A label that no line binds. -/
  | labelUnbound
  /-- A label that two lines bind. -/
  | labelBoundTwice
  /-- An image of no byte or of more than 16 (R71, R164). -/
  | imageLength
deriving DecidableEq, Repr

/-! Lines to bytes (R69 to R71). -/

/-- The labels of the lines, each bound to the address of its line: one byte a line, from address `k` (R71). -/
def labelBindings (k : Nat) : List AsmLine → List (String × Nat)
  | [] => []
  | l :: rest => l.labels.map (fun name => (name, k)) ++ labelBindings (k + 1) rest

/-- The number an operand stands for: itself, or the address its label is bound to (R69). -/
def operandNumber (env : List (String × Nat)) : AsmOperand → Except AsmError Nat
  | .number v => .ok v
  | .label name => match env.lookup name with
    | some v => .ok v
    | none => .error .labelUnbound

/-- The operand nibble; a number that does not fit is an error and is never reduced mod 16 (R69). -/
def operandNibble (env : List (String × Nat)) (o : AsmOperand) : Except AsmError Nibble :=
  match operandNumber env o with
  | .ok v => if v < 16 then .ok (BitVec.ofNat 4 v) else .error .operandTooLarge
  | .error e => .error e

/-- The byte a line places (R69 to R71): an instruction written with no operand assembles with `n = 0` (R70). -/
def assembleItem (env : List (String × Nat)) : AsmItem → Except AsmError Byte
  | .instruction op none =>
    if op.takesOperand then .error .operandMissing else .ok (encode (instrOf op 0))
  | .instruction op (some o) =>
    if op.takesOperand then
      match operandNibble env o with
      | .ok n => .ok (encode (instrOf op n))
      | .error e => .error e
    else .error .operandNotTaken
  | .byte v => if v < 256 then .ok (BitVec.ofNat 8 v) else .error .byteTooLarge

/-- The bytes of the lines, one a line (R71). -/
def assembleItems (env : List (String × Nat)) : List AsmLine → Except AsmError (List Byte)
  | [] => .ok []
  | l :: rest => match assembleItem env l.item with
    | .error e => .error e
    | .ok v => match assembleItems env rest with
      | .error e => .error e
      | .ok vs => .ok (v :: vs)

/-- The program entry of the lines: its image is 1 to 16 bytes (R71, R164). -/
def assemble (lines : List AsmLine) : Except AsmError ProgramEntry :=
  let env := labelBindings 0 lines
  if (env.map Prod.fst).Nodup then
    match assembleItems env lines with
    | .error e => .error e
    | .ok bytes =>
      let entry : ProgramEntry := { declaredLength := bytes.length, bytes := bytes }
      if entry.LengthInRange then .ok entry else .error .imageLength
  else .error .labelBoundTwice

/-! Text to lines (R69, R71). -/

/-- The value of a digit of the given base, 10 or 16. -/
def digitValue (base : Nat) (ch : Char) : Option Nat :=
  let v := if '0' ≤ ch ∧ ch ≤ '9' then ch.toNat - '0'.toNat
    else if 'a' ≤ ch ∧ ch ≤ 'f' then ch.toNat - 'a'.toNat + 10
    else if 'A' ≤ ch ∧ ch ≤ 'F' then ch.toNat - 'A'.toNat + 10
    else base
  if v < base then some v else none

/-- The number that digits write, after a value already read. -/
def digitsValue (base acc : Nat) : List Char → Option Nat
  | [] => some acc
  | ch :: rest => match digitValue base ch with
    | some d => digitsValue base (acc * base + d) rest
    | none => none

/-- A number in decimal or as `0xN` (R69). -/
def numberOfWord : List Char → Option Nat
  | '0' :: 'x' :: ch :: rest => digitsValue 16 0 (ch :: rest)
  | ch :: rest => digitsValue 10 0 (ch :: rest)
  | [] => none

/-- The words of a line up to a `;`, which begins a note as in the disassembly of R70; `word` is the word being read. -/
def wordsOf (word : List Char) : List Char → List (List Char)
  | [] => if word.isEmpty then [] else [word]
  | ch :: rest =>
    if ch = ';' then (if word.isEmpty then [] else [word])
    else if ch = ' ' ∨ ch = '\t' then
      if word.isEmpty then wordsOf [] rest else word :: wordsOf [] rest
    else wordsOf (word ++ [ch]) rest

/-- An operand word: a number if it begins with a digit, else a label (R69). -/
def operandOfWord (w : List Char) : Except AsmError AsmOperand :=
  match w.head?.bind (digitValue 10) with
  | none => .ok (.label (String.ofList w))
  | some _ => match numberOfWord w with
    | some v => .ok (.number v)
    | none => .error .malformedLine

/-- The item the words after the labels write (R69, R71). -/
def itemOfWords : List (List Char) → Except AsmError AsmItem
  | [w] => match allOpcodes.find? (fun op => spelling op == String.ofList w) with
    | some op => .ok (.instruction op none)
    | none => .error .malformedLine
  | [w, v] =>
    if String.ofList w = ".byte" then
      match numberOfWord v with
      | some k => .ok (.byte k)
      | none => .error .malformedLine
    else match allOpcodes.find? (fun op => spelling op == String.ofList w) with
      | some op => match operandOfWord v with
        | .ok o => .ok (.instruction op (some o))
        | .error e => .error e
      | none => .error .malformedLine
  | _ => .error .malformedLine

/-- A line from its words: `label:` words first, then the item (R69, R71). DESIGN CHOICE, log 13: R71 speaks of one `label:` at
the start of a line and is silent on more, and any number is accepted, each bound to the line's address; and no rule speaks of a
line that places no byte (blank, a note alone, labels alone), which is `malformedLine`. -/
def lineOfWords : List (List Char) → Except AsmError AsmLine
  | [] => .error .malformedLine
  | w :: rest =>
    if w.getLast? = some ':' then
      match lineOfWords rest with
      | .ok l => .ok { l with labels := String.ofList w.dropLast :: l.labels }
      | .error e => .error e
    else match itemOfWords (w :: rest) with
      | .ok item => .ok { labels := [], item := item }
      | .error e => .error e

/-- The lines a text writes. -/
def linesOfText : List String → Except AsmError (List AsmLine)
  | [] => .ok []
  | t :: rest => match lineOfWords (wordsOf [] t.toList) with
    | .error e => .error e
    | .ok l => match linesOfText rest with
      | .error e => .error e
      | .ok ls => .ok (l :: ls)

/-- The program entry a text writes (R69 to R71). -/
def assembleText (text : List String) : Except AsmError ProgramEntry :=
  match linesOfText text with
  | .ok ls => assemble ls
  | .error e => .error e

/-! Bytes to text (R70). -/

/-- A nibble as one hexadecimal digit. -/
def hexDigit (n : Nibble) : String :=
  (["0", "1", "2", "3", "4", "5", "6", "7", "8", "9", "A", "B", "C", "D", "E", "F"][n.toNat]?).getD ""

/-- The text of a byte: the mnemonic with its operand in decimal; where the operand is ignored, the mnemonic alone, followed by
`; n=0xN` if the nibble is not 0, so that no byte is lost (R70). -/
def disassemble (ir : Byte) : String :=
  let op := opcodeOf (decode ir)
  let n := operandOf (decode ir)
  if op.takesOperand then spelling op ++ " " ++ n.toNat.repr
  else if n = 0 then spelling op
  else spelling op ++ "; n=0x" ++ hexDigit n

end Sys2Proof.Machine
end

