-- ==== Sys2Proof/Machine/Interface.lean ====
section
/-! DEFINITION. The block around the core (70_reset_and_hazards.md R160 to R167): the accesses and events a step drives, the
image load, and the host's moves. State holds the core; `Block` adds the reset line, an input (R166; DESIGN CHOICE, log 11). -/

namespace Sys2Proof.Machine

/-! The signals of a step (R166). -/

/-- One access on the memory signals: `mem_addr` with `mem_rdata` (`mem_we = 0`) or with `mem_wdata` (`mem_we = 1`) (R166;
DESIGN CHOICE, log 15). -/
inductive BusAccess where
  | read (addr : Nibble) (rdata : Byte)
  | write (addr : Nibble) (wdata : Byte)
deriving DecidableEq, Repr

/-- `mem_addr` (R166). -/
def BusAccess.addr : BusAccess → Nibble
  | .read addr _ => addr
  | .write addr _ => addr

/-- `mem_we`: 1 for the STA write only (R166). -/
def BusAccess.we : BusAccess → Bool
  | .read _ _ => false
  | .write _ _ => true

/-- The data access an instruction makes, if any (R42). -/
def dataAccess (i : Instr) (s : State) : Option BusAccess :=
  match i with
  | .lda n | .ldb n | .add n | .sub n | .jmpv n =>
    some (.read (effectiveAddress n) (memRead s (effectiveAddress n)))
  | .sta n => some (.write (effectiveAddress n) s.a)
  | .nop _ | .adi _ | .jmp _ | .jc _ | .jz _ | .out _ | .movaB _ | .movbA _ | .ldi _ | .hlt _ => none

/-- The accesses of the step taken from `s`, in order: one fetch, then at most one data access (R42, R51, R166). A halted
core takes no step (R80) and drives none (DESIGN CHOICE, log 15). -/
def busAccesses (s : State) : List BusAccess :=
  if s.halted then []
  else .read s.pc (fetch s) :: (dataAccess (decode (fetch s)) s).toList

/-- `out_strobe` of the step taken from `s`, with the value it announces: one event per executed OUT (R131, R166). -/
def outStrobe (s : State) : Option Byte :=
  if s.halted then none
  else match opcodeOf (decode (fetch s)) with
    | .out => some s.a
    | .nop | .lda | .ldb | .sta | .add | .adi | .jmp | .jmpv | .jc | .jz | .movaB | .movbA | .ldi | .sub | .hlt => none

/-! The image load (R163, R164). -/

/-- RAM with the image's bytes from address `k` on, and 0x00 elsewhere (R163). -/
def imageRam (k : Nat) : List Byte → Memory
  | [] => []
  | v :: rest => if v = Memory.unlisted then imageRam (k + 1) rest else (k, v) :: imageRam (k + 1) rest

/-- The host's load of an entry: the image at offset 0, zeros above it (R163); an entry the host must refuse is refused, not
truncated and not padded (R164). -/
def loadImage (e : ProgramEntry) (s : State) : Host.Outcome State Fault Refusal :=
  if e.Admitted then .next { s with ram := imageRam 0 e.bytes } else .refused .imageNotAdmitted

/-! The block and the host's moves (R165, R167; DESIGN CHOICE, log 11). -/

/-- The core with its `reset` input (R166), and whether an image was loaded since reset was asserted (R165: release comes
"after the load"). -/
structure Block where
  resetLine : Bool
  loaded : Bool
  core : State
deriving DecidableEq, Repr

/-- What the host can do to the core (R165). -/
inductive HostMove where
  /-- Start over from R160, at any time. -/
  | assertReset
  /-- Write RAM per R163, while the core is held in reset. -/
  | loadImage (e : ProgramEntry)
  /-- Start the run, after the load. -/
  | releaseReset
deriving DecidableEq, Repr

/-- A move of the host. A load outside reset is refused, for the host never writes RAM while the core runs (R58, R165). -/
def hostMove (m : HostMove) (b : Block) : Host.Outcome Block Fault Refusal :=
  match m with
  | .assertReset => .next { resetLine := true, loaded := false, core := applyReset b.core }
  | .loadImage e =>
    if b.resetLine then
      match loadImage e b.core with
      | .next s => .next { b with loaded := true, core := s }
      | .fault f => .fault f
      | .refused r => .refused r
    else .refused .loadOutsideReset
  | .releaseReset =>
    if b.loaded then .next { b with resetLine := false } else .refused .releaseBeforeLoad

/-- A step of the block: the core's own step, but while `reset` is 1 the core is held (R80, R166). -/
def blockStep (b : Block) : Host.Outcome Block Fault Refusal :=
  if b.resetLine then .next b
  else match step b.core with
    | .next s => .next { b with core := s }
    | .fault f => .fault f
    | .refused r => .refused r

/-- `out_data`: the value of `Out`, readable at any time (R165, R166). -/
def outData (b : Block) : Byte := b.core.out

/-- `halted`: the value of `Halted`, readable at any time (R165, R166). -/
def haltedSignal (b : Block) : Bool := b.core.halted

/-- Read back: the whole end state, after `Halted = 1` only (R90, R165). -/
def readBack (b : Block) : Option State := if b.core.halted then some b.core else none

end Sys2Proof.Machine
end

