-- ==== Sys2Proof/Machine/Executor.lean ====
section
/-! DEFINITION. A run and its end (40_cycle.md R88 to R91): the executor of the model, with its step budget (00_scope.md R7).
It is no part of the core (DESIGN CHOICE, log 16). -/

namespace Sys2Proof.Machine

/-- What an executor reports (R90, R91): the state it stopped in (its `out` is "finalOutput", its `trace` the output trace),
the steps the core took, HLT's included, and whether the run ended by HLT. -/
structure RunReport where
  final : State
  stepsTaken : Nat
  haltedNaturally : Bool
deriving DecidableEq, Repr

/-- Run at most `budget` steps. A halted core takes no step, so none is counted (R80, R91). -/
def runBudget : Nat → State → RunReport
  | 0, s => { final := s, stepsTaken := 0, haltedNaturally := s.halted }
  | budget + 1, s =>
    if s.halted then { final := s, stepsTaken := 0, haltedNaturally := true }
    else match step s with
      | .next t =>
        let r := runBudget budget t
        { r with stepsTaken := r.stepsTaken + 1 }
      | .fault _ => { final := s, stepsTaken := 0, haltedNaturally := false }
      | .refused _ => { final := s, stepsTaken := 0, haltedNaturally := false }

/-- A run of an image from reset under a positive budget (R7, R88): no run starts for an entry the host must refuse (R164). -/
def runImage (e : ProgramEntry) (budget : Nat) : Host.Outcome RunReport Fault Refusal :=
  if budget = 0 then .refused .budgetNotPositive
  else match loadImage e State.reset with
    | .next s => .next (runBudget budget s)
    | .fault f => .fault f
    | .refused r => .refused r

end Sys2Proof.Machine
end

