-- ==== Sys2Proof/Safety.lean ====
section
/-! DEFINITION. The terms the statements use: frames, the table of reads and writes (10_state.md R34), the invariant of a
state, the states a run reaches, the end of a run. -/

namespace Sys2Proof.Machine

/-! Frames, each through the model's own read of the part it names. -/

/-- Every byte of RAM reads as before. -/
def SameMemory (s t : State) : Prop := ∀ addr : Nibble, memRead t addr = memRead s addr

/-- Every byte of RAM but the one at `stored` reads as before. -/
def SameMemoryBut (stored : Nibble) (s t : State) : Prop :=
  ∀ addr : Nibble, addr ≠ stored → memRead t addr = memRead s addr

/-- `C` and `Z` are as before. -/
def SameFlags (s t : State) : Prop := t.c = s.c ∧ t.z = s.z

/-- `Out` and the output trace are as before. -/
def SameOutput (s t : State) : Prop := t.out = s.out ∧ t.trace = s.trace

/-- `PC` becomes `(PC + 1) mod 16` (R83, R85). -/
def PcAdvances (s t : State) : Prop := t.pc.toNat = (s.pc.toNat + 1) % 16

/-- The opcode number of each row of the opcode map (R61). -/
def opcodeNumber : Opcode → Nat
  | .nop => 0x0
  | .lda => 0x1
  | .ldb => 0x2
  | .sta => 0x3
  | .add => 0x4
  | .adi => 0x5
  | .jmp => 0x6
  | .jmpv => 0x7
  | .jc => 0x8
  | .jz => 0x9
  | .out => 0xA
  | .movaB => 0xB
  | .movbA => 0xC
  | .ldi => 0xD
  | .sub => 0xE
  | .hlt => 0xF

/-- The byte `base + n` decodes to the instruction, and the instruction is encoded as that byte: the "Encoding" line of an
instruction's rule. -/
def EncodedAs (i : Instr) (base : Nat) (n : Nibble) : Prop :=
  ∀ ir : Byte, ir.toNat = base + n.toNat → decode ir = i ∧ encode i = ir

/-! What an instruction reads and writes (R34). -/

/-- The items of R34's table: `M` is `RAM[n]`, `trace` the output trace. `PC`, which every step reads and writes, is apart. -/
inductive Item where
  | a | b | c | z | m | out | trace | halted
deriving DecidableEq, Repr

/-- The "reads" column of R34. -/
def readsOf : Opcode → List Item
  | .nop => []
  | .lda => [.m]
  | .ldb => [.m]
  | .sta => [.a]
  | .add => [.a, .m]
  | .adi => [.a]
  | .jmp => []
  | .jmpv => [.m]
  | .jc => [.c]
  | .jz => [.z]
  | .out => [.a]
  | .movaB => [.b]
  | .movbA => [.a]
  | .ldi => []
  | .sub => [.a, .m]
  | .hlt => []

/-- The "writes" column of R34, without `PC`. -/
def writesOf : Opcode → List Item
  | .nop => []
  | .lda => [.a]
  | .ldb => [.b]
  | .sta => [.m]
  | .add => [.a, .c, .z]
  | .adi => [.a, .c, .z]
  | .jmp => []
  | .jmpv => []
  | .jc => []
  | .jz => []
  | .out => [.out, .trace]
  | .movaB => [.a]
  | .movbA => [.b]
  | .ldi => [.a]
  | .sub => [.a, .c, .z]
  | .hlt => [.halted]

/-- Two states agree on an item, the memory item being the byte at `n`. -/
def AgreeOn (n : Nibble) (s t : State) : Item → Prop
  | .a => s.a = t.a
  | .b => s.b = t.b
  | .c => s.c = t.c
  | .z => s.z = t.z
  | .m => memRead s n = memRead t n
  | .out => s.out = t.out
  | .trace => s.trace = t.trace
  | .halted => s.halted = t.halted

/-- Two states agree on the whole of an item: for the memory item, on every byte. -/
def AgreeWholly (s t : State) : Item → Prop
  | .m => SameMemory t s
  | .a => s.a = t.a
  | .b => s.b = t.b
  | .c => s.c = t.c
  | .z => s.z = t.z
  | .out => s.out = t.out
  | .trace => s.trace = t.trace
  | .halted => s.halted = t.halted

/-- The instruction at `PC` is one of these opcodes. -/
def FetchesOneOf (s : State) (ops : List Opcode) : Prop := opcodeOf (decode (fetch s)) ∈ ops

/-! The invariant, runs, and their end. -/

/-- RAM is in its canonical form. -/
abbrev MemoryCanonical (s : State) : Prop := s.ram.wf

/-- The latch holds the last event of the output trace, and 0x00 while there is none (R29, R131). -/
abbrev LatchMatchesTrace (s : State) : Prop := s.out = s.trace.getLastD 0x00

/-- Every core register holds its reset value (R160). -/
abbrev RegistersReset (s : State) : Prop :=
  s.a = 0x00 ∧ s.b = 0x00 ∧ s.c = false ∧ s.z = false ∧ s.pc = 0 ∧ s.out = 0x00 ∧ s.halted = false

/-- A step completes: neither a fault nor a refusal. -/
def Completes (s : State) : Prop := ∃ t, step s = .next t

/-- The states the steps from `s` reach (R88). -/
inductive Reaches (s : State) : State → Prop where
  | start : Reaches s s
  | then_step {t u : State} : Reaches s t → step t = .next u → Reaches s u

/-- The run from `s` ends: some step executes HLT (R88, R90). -/
def RunEnds (s : State) : Prop := ∃ t, Reaches s t ∧ t.halted = true

end Sys2Proof.Machine
end

