-- ==== Sys2Proof/Certificates/Slice0/Obligations.lean ====
section
/-! DEFINITION. The statements for the provers. Each docstring names what of spec/ it formalises; a statement that rests on a
decision of the spec or on a choice of the model says so. -/

open Sys2Proof Sys2Proof.Machine

/-! Encoding. -/

/-- 30_encoding.md R60: bytes and instructions correspond one to one, the opcode in the high nibble and the operand in the
low one. -/
def Obligations.BytesAndInstructionsCorrespond : Prop :=
  (∀ i : Instr, decode (encode i) = i) ∧
  (∀ ir : Byte, encode (decode ir) = ir) ∧
  (∀ ir : Byte, ir.toNat = opcodeNumber (opcodeOf (decode ir)) * 16 + (operandOf (decode ir)).toNat)

/-- 95_test_vectors.md section 2.1: the sample bytes decode as listed. -/
def Obligations.SampleBytesDecodeAsListed : Prop :=
  decode 0x00 = .nop 0 ∧ decode 0x05 = .nop 5 ∧ decode 0x1F = .lda 15 ∧ decode 0x2E = .ldb 14 ∧
  decode 0x3F = .sta 15 ∧ decode 0x4E = .add 14 ∧ decode 0x51 = .adi 1 ∧ decode 0x60 = .jmp 0 ∧
  decode 0x7F = .jmpv 15 ∧ decode 0x85 = .jc 5 ∧ decode 0x99 = .jz 9 ∧ decode 0xA7 = .out 7 ∧
  decode 0xB9 = .movaB 9 ∧ decode 0xC0 = .movbA 0 ∧ decode 0xDA = .ldi 10 ∧ decode 0xED = .sub 13 ∧
  decode 0xFF = .hlt 15

/-- 30_encoding.md R65: an ignored operand is accepted at all 16 values and has no effect. -/
def Obligations.IgnoredOperandsHaveNoEffect : Prop :=
  ∀ (n m : Nibble) (s : State),
    (EncodedAs (.nop n) 0x00 n ∧ exec (.nop n) s = exec (.nop m) s) ∧
    (EncodedAs (.out n) 0xA0 n ∧ exec (.out n) s = exec (.out m) s) ∧
    (EncodedAs (.movaB n) 0xB0 n ∧ exec (.movaB n) s = exec (.movaB m) s) ∧
    (EncodedAs (.movbA n) 0xC0 n ∧ exec (.movbA n) s = exec (.movbA m) s) ∧
    (EncodedAs (.hlt n) 0xF0 n ∧ exec (.hlt n) s = exec (.hlt m) s) ∧
    (∀ i ∈ [Instr.nop n, .out n, .movaB n, .movbA n, .hlt n], ∃ t, exec i s = .next t)

/-! The instructions: each completes in every state, with its result and its frame. -/

/-- 41_transfer.md R100. -/
def Obligations.LdaLoadsAccumulatorFromMemory : Prop :=
  ∀ (n : Nibble) (s : State), EncodedAs (.lda n) 0x10 n ∧
    ∃ t, exec (.lda n) s = .next t ∧ t.a = memRead s n ∧ PcAdvances s t ∧
      t.b = s.b ∧ SameFlags s t ∧ SameOutput s t ∧ t.halted = s.halted ∧ SameMemory s t

/-- 41_transfer.md R101. -/
def Obligations.LdbLoadsAuxiliaryFromMemory : Prop :=
  ∀ (n : Nibble) (s : State), EncodedAs (.ldb n) 0x20 n ∧
    ∃ t, exec (.ldb n) s = .next t ∧ t.b = memRead s n ∧ PcAdvances s t ∧
      t.a = s.a ∧ SameFlags s t ∧ SameOutput s t ∧ t.halted = s.halted ∧ SameMemory s t

/-- 41_transfer.md R102: the address stored to is `effectiveAddress n`, the operand itself. -/
def Obligations.StaStoresAccumulatorAtItsAddress : Prop :=
  ∀ (n : Nibble) (s : State), EncodedAs (.sta n) 0x30 n ∧
    ∃ t, exec (.sta n) s = .next t ∧
      memRead t (effectiveAddress n) = s.a ∧ effectiveAddress n = n ∧ SameMemoryBut (effectiveAddress n) s t ∧
      PcAdvances s t ∧ t.a = s.a ∧ t.b = s.b ∧ SameFlags s t ∧ SameOutput s t ∧ t.halted = s.halted

/-- 41_transfer.md R103. -/
def Obligations.MovaBCopiesAuxiliaryToAccumulator : Prop :=
  ∀ (n : Nibble) (s : State), EncodedAs (.movaB n) 0xB0 n ∧
    ∃ t, exec (.movaB n) s = .next t ∧ t.a = s.b ∧ PcAdvances s t ∧
      t.b = s.b ∧ SameFlags s t ∧ SameOutput s t ∧ t.halted = s.halted ∧ SameMemory s t

/-- 41_transfer.md R104. -/
def Obligations.MovbACopiesAccumulatorToAuxiliary : Prop :=
  ∀ (n : Nibble) (s : State), EncodedAs (.movbA n) 0xC0 n ∧
    ∃ t, exec (.movbA n) s = .next t ∧ t.b = s.a ∧ PcAdvances s t ∧
      t.a = s.a ∧ SameFlags s t ∧ SameOutput s t ∧ t.halted = s.halted ∧ SameMemory s t

/-- 41_transfer.md R105: the number of the immediate, bits 7:4 of `A` become 0. -/
def Obligations.LdiLoadsZeroExtendedImmediate : Prop :=
  ∀ (n : Nibble) (s : State), EncodedAs (.ldi n) 0xD0 n ∧
    ∃ t, exec (.ldi n) s = .next t ∧ t.a.toNat = n.toNat ∧ PcAdvances s t ∧
      t.b = s.b ∧ SameFlags s t ∧ SameOutput s t ∧ t.halted = s.halted ∧ SameMemory s t

/-- 42_arithmetic.md R113. -/
def Obligations.AddAddsMemoryToAccumulator : Prop :=
  ∀ (n : Nibble) (s : State), EncodedAs (.add n) 0x40 n ∧
    ∃ t, exec (.add n) s = .next t ∧
      t.a.toNat = (s.a.toNat + (memRead s n).toNat) % 256 ∧
      (t.c = true ↔ s.a.toNat + (memRead s n).toNat > 255) ∧
      (t.z = true ↔ (s.a.toNat + (memRead s n).toNat) % 256 = 0) ∧
      PcAdvances s t ∧ t.b = s.b ∧ SameOutput s t ∧ t.halted = s.halted ∧ SameMemory s t

/-- 42_arithmetic.md R114. -/
def Obligations.AdiAddsImmediateToAccumulator : Prop :=
  ∀ (n : Nibble) (s : State), EncodedAs (.adi n) 0x50 n ∧
    ∃ t, exec (.adi n) s = .next t ∧
      t.a.toNat = (s.a.toNat + n.toNat) % 256 ∧
      (t.c = true ↔ s.a.toNat + n.toNat > 255) ∧
      (t.z = true ↔ (s.a.toNat + n.toNat) % 256 = 0) ∧
      PcAdvances s t ∧ t.b = s.b ∧ SameOutput s t ∧ t.halted = s.halted ∧ SameMemory s t

/-- 42_arithmetic.md R115: the difference is exact, and its remainder mod 256 is the result. -/
def Obligations.SubSubtractsMemoryFromAccumulator : Prop :=
  ∀ (n : Nibble) (s : State), EncodedAs (.sub n) 0xE0 n ∧
    ∃ t, exec (.sub n) s = .next t ∧
      (t.a.toNat : Int) = ((s.a.toNat : Int) - ((memRead s n).toNat : Int)) % 256 ∧
      (t.c = true ↔ s.a.toNat ≥ (memRead s n).toNat) ∧
      (t.z = true ↔ t.a.toNat = 0) ∧
      PcAdvances s t ∧ t.b = s.b ∧ SameOutput s t ∧ t.halted = s.halted ∧ SameMemory s t

/-- 43_control.md R120, with its corner cases: a jump to itself changes nothing, a jump to `next` is a NOP. -/
def Obligations.JmpJumpsToItsTarget : Prop :=
  ∀ (n : Nibble) (s : State), EncodedAs (.jmp n) 0x60 n ∧
    (∃ t, exec (.jmp n) s = .next t ∧ t.pc = n ∧ (n = s.pc → t = s) ∧
      t.a = s.a ∧ t.b = s.b ∧ SameFlags s t ∧ SameOutput s t ∧ t.halted = s.halted ∧ SameMemory s t) ∧
    (n.toNat = (s.pc.toNat + 1) % 16 → ∀ m, exec (.jmp n) s = exec (.nop m) s)

/-- 43_control.md section JMPV. That the low four bits are the ones kept is the spec's decision D4 (log 5). -/
def Obligations.JmpvJumpsThroughTheLowNibble : Prop :=
  ∀ (n : Nibble) (s : State), EncodedAs (.jmpv n) 0x70 n ∧
    ∃ t, exec (.jmpv n) s = .next t ∧ t.pc.toNat = (memRead s n).toNat % 16 ∧
      t.a = s.a ∧ t.b = s.b ∧ SameFlags s t ∧ SameOutput s t ∧ t.halted = s.halted ∧ SameMemory s t

/-- 43_control.md R122. -/
def Obligations.JcJumpsExactlyWhenCarryIsSet : Prop :=
  ∀ (n : Nibble) (s : State), EncodedAs (.jc n) 0x80 n ∧
    ∃ t, exec (.jc n) s = .next t ∧ (s.c = true → t.pc = n) ∧ (s.c = false → PcAdvances s t) ∧
      t.a = s.a ∧ t.b = s.b ∧ SameFlags s t ∧ SameOutput s t ∧ t.halted = s.halted ∧ SameMemory s t

/-- 43_control.md R123. -/
def Obligations.JzJumpsExactlyWhenZeroIsSet : Prop :=
  ∀ (n : Nibble) (s : State), EncodedAs (.jz n) 0x90 n ∧
    ∃ t, exec (.jz n) s = .next t ∧ (s.z = true → t.pc = n) ∧ (s.z = false → PcAdvances s t) ∧
      t.a = s.a ∧ t.b = s.b ∧ SameFlags s t ∧ SameOutput s t ∧ t.halted = s.halted ∧ SameMemory s t

/-- 44_system.md R130. -/
def Obligations.NopOnlyAdvancesThePc : Prop :=
  ∀ (n : Nibble) (s : State), EncodedAs (.nop n) 0x00 n ∧
    ∃ t, exec (.nop n) s = .next t ∧ PcAdvances s t ∧
      t.a = s.a ∧ t.b = s.b ∧ SameFlags s t ∧ SameOutput s t ∧ t.halted = s.halted ∧ SameMemory s t

/-- 44_system.md section OUT. That each OUT is one event of the output trace is the spec's decision D9 (log 4). -/
def Obligations.OutLatchesAndEmitsAccumulator : Prop :=
  ∀ (n : Nibble) (s : State), EncodedAs (.out n) 0xA0 n ∧
    ∃ t, exec (.out n) s = .next t ∧ t.out = s.a ∧ t.trace = s.trace ++ [s.a] ∧ PcAdvances s t ∧
      t.a = s.a ∧ t.b = s.b ∧ SameFlags s t ∧ t.halted = s.halted ∧ SameMemory s t

/-- 44_system.md section HLT. That HLT advances `PC` too is the spec's decision D7 (log 6). -/
def Obligations.HltSetsHaltedAndKeepsTheRest : Prop :=
  ∀ (n : Nibble) (s : State), EncodedAs (.hlt n) 0xF0 n ∧
    ∃ t, exec (.hlt n) s = .next t ∧ t.halted = true ∧ PcAdvances s t ∧
      t.a = s.a ∧ t.b = s.b ∧ SameFlags s t ∧ SameOutput s t ∧ SameMemory s t

/-! Flag rules and laws. -/

/-- 42_arithmetic.md R110: `Z` of the wrapped result, for ADD, ADI and SUB. -/
def Obligations.ZeroFlagFollowsTheWrappedResult : Prop :=
  ∀ (n : Nibble) (s : State),
    (∃ t, exec (.add n) s = .next t ∧ (t.z = true ↔ t.a = 0) ∧
      (s.a.toNat + (memRead s n).toNat = 256 → t.z = true)) ∧
    (∃ t, exec (.adi n) s = .next t ∧ (t.z = true ↔ t.a = 0) ∧ (s.a.toNat + n.toNat = 256 → t.z = true)) ∧
    (∃ t, exec (.sub n) s = .next t ∧ (t.z = true ↔ t.a = 0))

/-- 42_arithmetic.md R111: `C` of the unbounded sum, for ADD and ADI. -/
def Obligations.CarryFlagOfAdditionIsTheCarryOut : Prop :=
  ∀ (n : Nibble) (s : State),
    (∃ t, exec (.add n) s = .next t ∧ (t.c = true ↔ s.a.toNat + (memRead s n).toNat > 255)) ∧
    (∃ t, exec (.adi n) s = .next t ∧ (t.c = true ↔ s.a.toNat + n.toNat > 255))

/-- 42_arithmetic.md R112: `C` after SUB is "no borrow", of `A` before the operation. -/
def Obligations.CarryFlagOfSubtractionIsNoBorrow : Prop :=
  ∀ (n : Nibble) (s : State),
    ∃ t, exec (.sub n) s = .next t ∧ (t.c = true ↔ s.a.toNat ≥ (memRead s n).toNat) ∧
      (t.c = false ↔ s.a.toNat < (memRead s n).toNat)

/-- 42_arithmetic.md section 2, the addition laws: which flag pairs can follow ADD and ADI, and when. -/
def Obligations.FlagPairsAfterAddition : Prop :=
  ∀ (n : Nibble) (s : State),
    (∃ t, exec (.add n) s = .next t ∧
      (t.c = true ∧ t.z = true ↔ s.a.toNat + (memRead s n).toNat = 256) ∧
      (t.c = false ∧ t.z = true ↔ s.a = 0 ∧ memRead s n = 0)) ∧
    (∃ t, exec (.adi n) s = .next t ∧
      (t.c = true ∧ t.z = true ↔ s.a.toNat + n.toNat = 256) ∧
      (t.c = false ∧ t.z = true ↔ s.a = 0 ∧ n = 0))

/-- 42_arithmetic.md section 2, the subtraction laws: the pair `C = 0, Z = 1` never follows a SUB. -/
def Obligations.ZeroAfterSubtractionImpliesNoBorrow : Prop :=
  ∀ (n : Nibble) (s : State),
    ∃ t, exec (.sub n) s = .next t ∧ (t.z = true ↔ s.a = memRead s n) ∧ (t.z = true → t.c = true) ∧
      ¬(t.c = false ∧ t.z = true)

/-- 42_arithmetic.md section 2, the third law: SUB is the addition `A + (255 - m) + 1`, with the carry out of that sum. -/
def Obligations.SubtractionIsTheComplementAddition : Prop :=
  ∀ (n : Nibble) (s : State),
    ∃ t, exec (.sub n) s = .next t ∧
      t.a.toNat = (s.a.toNat + (255 - (memRead s n).toNat) + 1) % 256 ∧
      (t.c = true ↔ s.a.toNat + (255 - (memRead s n).toNat) + 1 > 255)

/-- 30_encoding.md section 4, the idiom "computed jump": STA and then JMPV of the same address jump to `A mod 16`. The low
nibble is the spec's decision D4 (log 5). -/
def Obligations.StoreThenIndirectJumpGoesToAccumulator : Prop :=
  ∀ (n : Nibble) (s : State), ∃ t u, exec (.sta n) s = .next t ∧ exec (.jmpv n) t = .next u ∧
    u.pc.toNat = s.a.toNat % 16 ∧ u.a = s.a

/-! What each part of the state is read and written by. -/

/-- 10_state.md sections 2 and 7: `A` is written only by and read only by the instructions listed there. An instruction outside
the writers leaves `A`; one outside the readers computes the same whatever `A` held. That the listed ones do write and read it is
said by their own statements. -/
def Obligations.AccumulatorReadersAndWriters : Prop :=
  State.reset.a = 0x00 ∧
  ∀ (i : Instr) (s : State) (v : Byte), ∃ t, exec i s = .next t ∧
    (opcodeOf i ∉ [Opcode.lda, .add, .adi, .movaB, .ldi, .sub] → t.a = s.a) ∧
    (opcodeOf i ∉ [Opcode.sta, .add, .adi, .out, .movbA, .sub] →
      exec i { s with a := v } =
        .next { t with a := if opcodeOf i ∈ [Opcode.lda, .movaB, .ldi] then t.a else v })

/-- 10_state.md R22: `B` is written only by LDB and MOVB_A and read only by MOVA_B; no arithmetic instruction reads it. -/
def Obligations.AuxiliaryReadersAndWriters : Prop :=
  State.reset.b = 0x00 ∧
  ∀ (i : Instr) (s : State) (v : Byte), ∃ t, exec i s = .next t ∧
    (opcodeOf i ∉ [Opcode.ldb, .movbA] → t.b = s.b) ∧
    (opcodeOf i ∉ [Opcode.movaB] →
      exec i { s with b := v } = .next { t with b := if opcodeOf i ∈ [Opcode.ldb, .movbA] then t.b else v })

/-- 10_state.md R26: `C` is written only by ADD, ADI and SUB and read only by JC. -/
def Obligations.CarryReadersAndWriters : Prop :=
  State.reset.c = false ∧
  ∀ (i : Instr) (s : State) (v : Bool), ∃ t, exec i s = .next t ∧
    (opcodeOf i ∉ [Opcode.add, .adi, .sub] → t.c = s.c) ∧
    (opcodeOf i ∉ [Opcode.jc] →
      exec i { s with c := v } = .next { t with c := if opcodeOf i ∈ [Opcode.add, .adi, .sub] then t.c else v })

/-- 10_state.md R27: `Z` is written only by ADD, ADI and SUB and read only by JZ. -/
def Obligations.ZeroReadersAndWriters : Prop :=
  State.reset.z = false ∧
  ∀ (i : Instr) (s : State) (v : Bool), ∃ t, exec i s = .next t ∧
    (opcodeOf i ∉ [Opcode.add, .adi, .sub] → t.z = s.z) ∧
    (opcodeOf i ∉ [Opcode.jz] →
      exec i { s with z := v } = .next { t with z := if opcodeOf i ∈ [Opcode.add, .adi, .sub] then t.z else v })

/-- 10_state.md section 5: `Out` is written only by OUT, which copies `A`, and read by no instruction. -/
def Obligations.OutputLatchIsWrittenByOutAndReadByNone : Prop :=
  ∀ (i : Instr) (s : State) (v : Byte), ∃ t, exec i s = .next t ∧
    (opcodeOf i = .out → t.out = s.a) ∧ (opcodeOf i ≠ .out → t.out = s.out) ∧
    exec i { s with out := v } = .next { t with out := if opcodeOf i = .out then t.out else v }

/-- 10_state.md section 3: no instruction reads `PC` as data. Whatever `PC` was, everything but the new `PC` is the same. -/
def Obligations.PcIsNeverReadAsData : Prop :=
  ∀ (i : Instr) (s : State) (v : Nibble), ∃ t u, exec i s = .next t ∧ exec i { s with pc := v } = .next u ∧
    u = { t with pc := u.pc }

/-- 10_state.md section 7, the "writes" column: what the table does not list for an instruction is unchanged, every byte of
RAM but the addressed one included. -/
def Obligations.NothingOutsideTheWriteTableChanges : Prop :=
  ∀ (i : Instr) (s t : State), exec i s = .next t →
    (∀ x : Item, x ∉ writesOf (opcodeOf i) → AgreeWholly s t x) ∧ SameMemoryBut (operandOf i) s t

/-- 10_state.md section 7, the "reads" column: two states that agree on `PC` and on what the table lists as read get the same
`PC`, the same written items, and the same new events of the output trace. -/
def Obligations.ResultsDependOnlyOnTheReadTable : Prop :=
  ∀ (i : Instr) (s s' t t' : State), s.pc = s'.pc →
    (∀ x ∈ readsOf (opcodeOf i), AgreeOn (operandOf i) s s' x) →
    exec i s = .next t → exec i s' = .next t' →
    t.pc = t'.pc ∧ (∀ x ∈ writesOf (opcodeOf i), x ≠ .trace → AgreeOn (operandOf i) t t' x) ∧
      ∃ events, t.trace = s.trace ++ events ∧ t'.trace = s'.trace ++ events

/-! The step. -/

/-- 40_cycle.md R81: a step of a core that is not halted reads the byte at `PC`, splits it, and executes the instruction. -/
def Obligations.StepRunsTheInstructionAtThePc : Prop :=
  ∀ s : State, s.halted = false →
    let ir := memRead s s.pc
    opcodeNumber (opcodeOf (decode ir)) = ir.toNat / 16 ∧ (operandOf (decode ir)).toNat = ir.toNat % 16 ∧
      step s = exec (decode ir) s

/-- 60_exceptions.md section 1: no step faults, traps or stops with an error. The model's step answers a halted state
unchanged (log 3). -/
def Obligations.EveryStepCompletes : Prop := ∀ s : State, Completes s

/-- 60_exceptions.md section 6: nothing but reset leaves the halted state, and all state survives in it. That the model's
step answers a halted state unchanged is the model's choice (log 3). -/
def Obligations.HaltedCoreKeepsAllItsState : Prop :=
  ∀ (k : Nat) (s : State), s.halted = true → Host.Core.run Sys2Proof.core k s = .next s

/-- 10_state.md section 5: a step sets `Halted` exactly when it executes HLT. -/
def Obligations.OnlyHltHalts : Prop :=
  ∀ s t : State, s.halted = false → step s = .next t → (t.halted = true ↔ FetchesOneOf s [.hlt])

/-- 40_cycle.md section 1: `PC` advances by exactly 1, wrapping from 15 to 0, unless a jump is taken. That HLT advances it too
is the spec's decision D7 (log 6). -/
def Obligations.PcAdvancesUnlessAJumpIsTaken : Prop :=
  ∀ s t : State, s.halted = false → step s = .next t →
    (¬FetchesOneOf s [.jmp, .jmpv, .jc, .jz] → PcAdvances s t) ∧
    (¬FetchesOneOf s [.jmp, .jmpv, .jc, .jz] → s.pc = 15 → t.pc = 0) ∧
    (FetchesOneOf s [.jc] → s.c = false → PcAdvances s t) ∧
    (FetchesOneOf s [.jz] → s.z = false → PcAdvances s t)

/-- 20_memory.md section 3: a store is seen by the very next fetch, and a store to its own address does not change its own
execution. The order is the spec's decisions D5 and D6 (log 7). -/
def Obligations.StoreIsSeenByTheNextFetch : Prop :=
  ∀ (n : Nibble) (s : State), s.halted = false → decode (memRead s s.pc) = .sta n →
    ∃ t, step s = .next t ∧ memRead t n = s.a ∧ SameMemoryBut n s t ∧ PcAdvances s t ∧
      (t.pc = n → step t = exec (decode s.a) t)

/-- 20_memory.md section 1 and 40_cycle.md section 1: the step drives one fetch at `PC` and then at most one data access, a
write exactly for STA. The order is the spec's decision D6 (log 7), the shape of the list the model's (log 15). -/
def Obligations.StepDrivesOneFetchAndAtMostOneDataAccess : Prop :=
  ∀ s : State, s.halted = false →
    ∃ data, busAccesses s = BusAccess.read s.pc (memRead s s.pc) :: data ∧ data.length ≤ 1 ∧
      (data ≠ [] ↔ FetchesOneOf s [.lda, .ldb, .sta, .add, .sub, .jmpv]) ∧
      (∀ x ∈ data, x.addr = operandOf (decode (memRead s s.pc)) ∧
        (x.we = true ↔ FetchesOneOf s [.sta]) ∧
        (x = .read x.addr (memRead s x.addr) ∨ x = .write x.addr s.a))

/-- 70_reset_and_hazards.md section 3: the write signals of a step say all that the step does to RAM. -/
def Obligations.RamChangesExactlyByTheWritesDriven : Prop :=
  ∀ s t : State, step s = .next t → ∀ addr : Nibble,
    (∀ v, BusAccess.write addr v ∈ busAccesses s → memRead t addr = v) ∧
    ((∀ v, BusAccess.write addr v ∉ busAccesses s) → memRead t addr = memRead s addr)

/-- 44_system.md section OUT and 70_reset_and_hazards.md section 3: the output trace grows by the step's strobe and by
nothing else, and the latch changes only with a strobe. The trace is the spec's decision D9 (log 4). -/
def Obligations.OutputTraceGrowsByTheStrobe : Prop :=
  ∀ s t : State, step s = .next t →
    t.trace = s.trace ++ (outStrobe s).toList ∧ t.out = (outStrobe s).getD s.out

/-! Invariants. -/

/-- The memory's canonical form is the model's own (log 1): every step keeps it. -/
def Obligations.StepKeepsMemoryCanonical : Prop :=
  ∀ s t : State, MemoryCanonical s → step s = .next t → MemoryCanonical t

/-- 44_system.md section OUT: the latch keeps the last value of the output trace (the spec's decision D9, log 4): every step
keeps it so. -/
def Obligations.StepKeepsLatchMatchingTrace : Prop :=
  ∀ s t : State, LatchMatchesTrace s → step s = .next t → LatchMatchesTrace t

/-- The state after reset meets both invariants (log 1, log 4). -/
def Obligations.ResetMeetsTheInvariants : Prop :=
  MemoryCanonical State.reset ∧ LatchMatchesTrace State.reset

/-- In the canonical form a memory is determined by what its 16 addresses read (log 1). -/
def Obligations.CanonicalMemoryIsDeterminedByItsReads : Prop :=
  ∀ m m' : Memory, m.wf → m'.wf → (∀ addr : Nibble, m.read addr = m'.read addr) → m = m'

/-! Reset, the image load and the host. -/

/-- 70_reset_and_hazards.md section 1: reset puts every core register in its reset value, whatever it held, and an image load
keeps it (the spec's decision D10, log 1), so that every run starts with it; and a halted core stays halted under every step and
every other move of the host. That nothing but reset leaves the halted state is the spec's decision D8; that step answers there
at all is the model's choice (log 3), and so are the block and the host's moves on it (log 11). -/
def Obligations.ResetPutsEveryRegisterInItsResetValue : Prop :=
  (∀ s : State, RegistersReset (applyReset s)) ∧ RegistersReset State.reset ∧
  (∀ b : Block, ∃ b', hostMove .assertReset b = .next b' ∧ b'.resetLine = true ∧ RegistersReset b'.core) ∧
  (∀ (e : ProgramEntry) (s t : State), loadImage e s = .next t → RegistersReset s → RegistersReset t) ∧
  (∀ b b' : Block, b.core.halted = true → blockStep b = .next b' → b'.core.halted = true) ∧
  (∀ (m : HostMove) (b b' : Block), b.core.halted = true → hostMove m b = .next b' →
    m = .assertReset ∨ b'.core.halted = true)

/-- 70_reset_and_hazards.md section 1, the image load: the image from offset 0, zeros above it, no register touched (the spec's
decision D10, log 1). -/
def Obligations.ImageLoadFillsRamFromOffsetZero : Prop :=
  ∀ (e : ProgramEntry) (s : State), e.Admitted → ∃ t, loadImage e s = .next t ∧
    (∀ addr : Nibble, memRead t addr = e.bytes.getD addr.toNat 0x00) ∧ MemoryCanonical t ∧
    t = { s with ram := t.ram }

/-- 70_reset_and_hazards.md R164: exactly the entries of 1 to 16 bytes whose declared length is true are loaded; every other
one is refused, and no run of it starts. -/
def Obligations.OnlyAdmittedImagesAreLoaded : Prop :=
  ∀ (e : ProgramEntry) (s : State),
    ((∃ t, loadImage e s = .next t) ↔
      e.declaredLength = e.bytes.length ∧ 1 ≤ e.bytes.length ∧ e.bytes.length ≤ 16) ∧
    (¬(e.declaredLength = e.bytes.length ∧ 1 ≤ e.bytes.length ∧ e.bytes.length ≤ 16) →
      loadImage e s = .refused .imageNotAdmitted ∧
      ∀ budget, 0 < budget → runImage e budget = .refused .imageNotAdmitted)

/-- 70_reset_and_hazards.md sections 1, 2 and 4: reset, load, release lead from any block to a run whose core holds the reset
values and the image and fetches RAM[0] first (decisions D10 and D21, log 1, log 11, log 19). -/
def Obligations.BootRunsTheImageFromAddressZero : Prop :=
  ∀ (b : Block) (e : ProgramEntry), e.Admitted →
    ∃ b1 b2 b3 : Block, hostMove .assertReset b = .next b1 ∧ hostMove (.loadImage e) b1 = .next b2 ∧
      hostMove .releaseReset b2 = .next b3 ∧ b3.resetLine = false ∧ RegistersReset b3.core ∧
      b3.core.trace = [] ∧ (∀ addr : Nibble, memRead b3.core addr = e.bytes.getD addr.toNat 0x00) ∧
      step b3.core = exec (decode (e.bytes.getD 0 0x00)) b3.core

/-- 70_reset_and_hazards.md section 3: while the reset line is 1 the core is held at its reset values, under every move of the
host and every step of the block (the block is the model's, log 11). -/
def Obligations.CoreIsHeldAtResetValuesWhileResetIsHigh : Prop :=
  ∀ (m : HostMove) (b b' : Block), (b.resetLine = true → RegistersReset b.core) →
    (hostMove m b = .next b' ∨ blockStep b = .next b') → b'.resetLine = true → RegistersReset b'.core

/-- 20_memory.md section 3 and 70_reset_and_hazards.md section 2: while the core runs, no move of the host changes it but
reset, and a load is refused (the spec's decision D11, log 9; the refusal is the model's, log 11). -/
def Obligations.HostNeverWritesARunningCore : Prop :=
  ∀ (m : HostMove) (b : Block), b.resetLine = false →
    (∀ b', hostMove m b = .next b' → m = .assertReset ∨ b'.core = b.core) ∧
    (∀ e, hostMove (.loadImage e) b = .refused .loadOutsideReset)

/-! Runs. -/

/-- 40_cycle.md section 2: the run ends exactly when some step of it executes HLT. -/
def Obligations.RunEndsExactlyWhenHltIsExecuted : Prop :=
  ∀ s : State, s.halted = false →
    (RunEnds s ↔ ∃ t, Reaches s t ∧ t.halted = false ∧ FetchesOneOf t [.hlt])

/-- 40_cycle.md section 2: the executor takes the core's own steps, as many as it reports and at most its budget; it reports an
unfinished run only after the whole budget (the spec's decision D16, log 16). -/
def Obligations.ExecutorTakesTheCoresOwnSteps : Prop :=
  ∀ (budget : Nat) (s : State),
    Host.Core.run Sys2Proof.core (runBudget budget s).stepsTaken s = .next (runBudget budget s).final ∧
    (runBudget budget s).stepsTaken ≤ budget ∧
    ((runBudget budget s).haltedNaturally = true ↔ (runBudget budget s).final.halted = true) ∧
    ((runBudget budget s).haltedNaturally = false → (runBudget budget s).stepsTaken = budget) ∧
    (∀ k t, k < (runBudget budget s).stepsTaken → Host.Core.run Sys2Proof.core k s = .next t → t.halted = false)

/-- 40_cycle.md section 2 and 43_control.md section JMP: a JMP to its own address uses the whole budget and never halts (the
spec's decisions D16 and D22, log 16). -/
def Obligations.JumpToItselfUsesTheWholeBudget : Prop :=
  ∀ (budget : Nat) (s : State), s.halted = false → decode (memRead s s.pc) = .jmp s.pc →
    runBudget budget s = { final := s, stepsTaken := budget, haltedNaturally := false }

/-- A table word placed at `PC` is what the next step runs (the model's convention, log 2 and log 17). -/
def Obligations.PlacedWordRunsNext : Prop :=
  ∀ (s : State) (nbits w : Nat),
    step (s.withFetchWord nbits w) = exec (decode (tableByte nbits w)) (s.withFetchWord nbits w) ∧
    memRead (s.withFetchWord nbits w) s.pc = tableByte nbits w ∧ SameMemoryBut s.pc s (s.withFetchWord nbits w)

/-! The assembler. -/

/-- 30_encoding.md section 4: a line that assembles gives the byte of its own opcode and operand, and an operand that does not
fit in 4 bits is an error, never reduced (the spec's decision D17, log 13). -/
def Obligations.AssembledLinesKeepOpcodeAndOperand : Prop :=
  ∀ (env : List (String × Nat)) (op : Opcode),
    (∀ (o : Option AsmOperand) (ir : Byte), assembleItem env (.instruction op o) = .ok ir →
      opcodeOf (decode ir) = op ∧ (o = none → operandOf (decode ir) = 0) ∧
      (∀ v, o = some (.number v) → (operandOf (decode ir)).toNat = v)) ∧
    (∀ v, assembleItem env (.instruction op (some (.number v))) =
      if op.takesOperand = true then
        (if v < 16 then .ok (encode (instrOf op (BitVec.ofNat 4 v))) else .error .operandTooLarge)
      else .error .operandNotTaken)

/-- 30_encoding.md section 4: the disassembly loses no byte (the spec's decision D17, log 13). -/
def Obligations.DisassemblyLosesNoByte : Prop :=
  ∀ ir ir' : Byte, disassemble ir = disassemble ir' → ir = ir'
end

