-- ==== Sys2Proof/Laws/Arith.lean ====
section
/-! SUPPORT. What the sums, differences and flags of Machine/Flags.lean are, in numbers (42_arithmetic.md R110 to R116). -/

namespace Sys2Proof.Machine

theorem wrappedSum_toNat (a m : Byte) : (wrappedSum a m).toNat = (a.toNat + m.toNat) % 256 := by
  simp [wrappedSum, exactSum]

theorem wrappedSum_eq_add (a m : Byte) : wrappedSum a m = a + m :=
  BitVec.eq_of_toNat_eq (by rw [wrappedSum_toNat, BitVec.toNat_add])

theorem wrappedDifference_eq_sub (a m : Byte) : wrappedDifference a m = a - m := by
  apply BitVec.eq_of_toNat_eq
  have ha := a.isLt
  have hm := m.isLt
  simp only [wrappedDifference, exactDifference, BitVec.toNat_ofInt, BitVec.toNat_sub]
  omega

theorem wrappedDifference_toNat (a m : Byte) :
    (wrappedDifference a m).toNat = (a.toNat + 256 - m.toNat) % 256 := by
  have ha := a.isLt
  have hm := m.isLt
  rw [wrappedDifference_eq_sub, BitVec.toNat_sub]
  omega

theorem carryOut_iff (a m : Byte) : carryOut a m = true ↔ 255 < a.toNat + m.toNat := 
  decide_eq_true_iff

theorem noBorrow_iff (a m : Byte) : noBorrow a m = true ↔ m.toNat ≤ a.toNat := 
  decide_eq_true_iff

theorem zeroOf_iff (r : Byte) : zeroOf r = true ↔ r.toNat = 0 := by
  simp [zeroOf, ← BitVec.toNat_inj]

end Sys2Proof.Machine
end

