-- ==== Sys2Proof/Laws/Decode.lean ====
section
/-! SUPPORT. The fields of a byte made of two nibbles. -/

namespace Sys2Proof

theorem opcodeField_toNat (ir : Byte) : (opcodeField ir).toNat = ir.toNat / 16 := by
  have h := ir.isLt
  simp only [opcodeField, BitVec.extractLsb'_toNat, Nat.shiftRight_eq_div_pow]
  omega

theorem operandField_toNat (ir : Byte) : (operandField ir).toNat = ir.toNat % 16 := by
  simp only [operandField, BitVec.extractLsb'_toNat, Nat.shiftRight_zero]

theorem joinFields_toNat (op n : Nibble) : (joinFields op n).toNat = op.toNat * 16 + n.toNat := by
  have ho := op.isLt
  have hn := n.isLt
  simp only [joinFields, BitVec.toNat_ofNat]
  omega

@[simp] theorem opcodeField_joinFields (op n : Nibble) : opcodeField (joinFields op n) = op := by
  apply BitVec.eq_of_toNat_eq
  have hn := n.isLt
  rw [opcodeField_toNat, joinFields_toNat]
  omega

@[simp] theorem operandField_joinFields (op n : Nibble) : operandField (joinFields op n) = n := by
  apply BitVec.eq_of_toNat_eq
  have hn := n.isLt
  rw [operandField_toNat, joinFields_toNat]
  omega

theorem joinFields_opcodeField_operandField (ir : Byte) : joinFields (opcodeField ir) (operandField ir) = ir := by
  apply BitVec.eq_of_toNat_eq
  rw [joinFields_toNat, opcodeField_toNat, operandField_toNat]
  omega

@[simp] theorem opcodeOf_instrOf (op : Opcode) (n : Nibble) : opcodeOf (instrOf op n) = op := by cases op <;> rfl

@[simp] theorem operandOf_instrOf (op : Opcode) (n : Nibble) : operandOf (instrOf op n) = n := by cases op <;> rfl

theorem instrOf_opcodeOf_operandOf (i : Instr) : instrOf (opcodeOf i) (operandOf i) = i := by cases i <;> rfl

end Sys2Proof
end

