-- ==== Sys2Proof/Laws/State.lean ====
section
/-! SUPPORT. Field by field, what each update of Machine/Ops.lean leaves in the state, and what it leaves in RAM. -/

namespace Sys2Proof.Machine

@[simp] theorem setA_a (s : State) (v : Byte) : (setA s v).a = v := rfl
@[simp] theorem setA_b (s : State) (v : Byte) : (setA s v).b = s.b := rfl
@[simp] theorem setA_c (s : State) (v : Byte) : (setA s v).c = s.c := rfl
@[simp] theorem setA_z (s : State) (v : Byte) : (setA s v).z = s.z := rfl
@[simp] theorem setA_pc (s : State) (v : Byte) : (setA s v).pc = s.pc := rfl
@[simp] theorem setA_out (s : State) (v : Byte) : (setA s v).out = s.out := rfl
@[simp] theorem setA_halted (s : State) (v : Byte) : (setA s v).halted = s.halted := rfl
@[simp] theorem setA_ram (s : State) (v : Byte) : (setA s v).ram = s.ram := rfl
@[simp] theorem setA_trace (s : State) (v : Byte) : (setA s v).trace = s.trace := rfl
@[simp] theorem memRead_setA (s : State) (v : Byte) (x : Nibble) : memRead (setA s v) x = memRead s x := rfl

@[simp] theorem setB_a (s : State) (v : Byte) : (setB s v).a = s.a := rfl
@[simp] theorem setB_b (s : State) (v : Byte) : (setB s v).b = v := rfl
@[simp] theorem setB_c (s : State) (v : Byte) : (setB s v).c = s.c := rfl
@[simp] theorem setB_z (s : State) (v : Byte) : (setB s v).z = s.z := rfl
@[simp] theorem setB_pc (s : State) (v : Byte) : (setB s v).pc = s.pc := rfl
@[simp] theorem setB_out (s : State) (v : Byte) : (setB s v).out = s.out := rfl
@[simp] theorem setB_halted (s : State) (v : Byte) : (setB s v).halted = s.halted := rfl
@[simp] theorem setB_ram (s : State) (v : Byte) : (setB s v).ram = s.ram := rfl
@[simp] theorem setB_trace (s : State) (v : Byte) : (setB s v).trace = s.trace := rfl
@[simp] theorem memRead_setB (s : State) (v : Byte) (x : Nibble) : memRead (setB s v) x = memRead s x := rfl

@[simp] theorem setFlags_a (s : State) (c z : Bool) : (setFlags s c z).a = s.a := rfl
@[simp] theorem setFlags_b (s : State) (c z : Bool) : (setFlags s c z).b = s.b := rfl
@[simp] theorem setFlags_c (s : State) (c z : Bool) : (setFlags s c z).c = c := rfl
@[simp] theorem setFlags_z (s : State) (c z : Bool) : (setFlags s c z).z = z := rfl
@[simp] theorem setFlags_pc (s : State) (c z : Bool) : (setFlags s c z).pc = s.pc := rfl
@[simp] theorem setFlags_out (s : State) (c z : Bool) : (setFlags s c z).out = s.out := rfl
@[simp] theorem setFlags_halted (s : State) (c z : Bool) : (setFlags s c z).halted = s.halted := rfl
@[simp] theorem setFlags_ram (s : State) (c z : Bool) : (setFlags s c z).ram = s.ram := rfl
@[simp] theorem setFlags_trace (s : State) (c z : Bool) : (setFlags s c z).trace = s.trace := rfl
@[simp] theorem memRead_setFlags (s : State) (c z : Bool) (x : Nibble) : memRead (setFlags s c z) x = memRead s x := rfl

@[simp] theorem memWrite_a (s : State) (addr : Nibble) (v : Byte) : (memWrite s addr v).a = s.a := rfl
@[simp] theorem memWrite_b (s : State) (addr : Nibble) (v : Byte) : (memWrite s addr v).b = s.b := rfl
@[simp] theorem memWrite_c (s : State) (addr : Nibble) (v : Byte) : (memWrite s addr v).c = s.c := rfl
@[simp] theorem memWrite_z (s : State) (addr : Nibble) (v : Byte) : (memWrite s addr v).z = s.z := rfl
@[simp] theorem memWrite_pc (s : State) (addr : Nibble) (v : Byte) : (memWrite s addr v).pc = s.pc := rfl
@[simp] theorem memWrite_out (s : State) (addr : Nibble) (v : Byte) : (memWrite s addr v).out = s.out := rfl
@[simp] theorem memWrite_halted (s : State) (addr : Nibble) (v : Byte) : (memWrite s addr v).halted = s.halted := rfl
@[simp] theorem memWrite_ram (s : State) (addr : Nibble) (v : Byte) : (memWrite s addr v).ram = s.ram.write addr v := rfl
@[simp] theorem memWrite_trace (s : State) (addr : Nibble) (v : Byte) : (memWrite s addr v).trace = s.trace := rfl

@[simp] theorem emitOutput_a (s : State) (v : Byte) : (emitOutput s v).a = s.a := rfl
@[simp] theorem emitOutput_b (s : State) (v : Byte) : (emitOutput s v).b = s.b := rfl
@[simp] theorem emitOutput_c (s : State) (v : Byte) : (emitOutput s v).c = s.c := rfl
@[simp] theorem emitOutput_z (s : State) (v : Byte) : (emitOutput s v).z = s.z := rfl
@[simp] theorem emitOutput_pc (s : State) (v : Byte) : (emitOutput s v).pc = s.pc := rfl
@[simp] theorem emitOutput_out (s : State) (v : Byte) : (emitOutput s v).out = v := rfl
@[simp] theorem emitOutput_halted (s : State) (v : Byte) : (emitOutput s v).halted = s.halted := rfl
@[simp] theorem emitOutput_ram (s : State) (v : Byte) : (emitOutput s v).ram = s.ram := rfl
@[simp] theorem emitOutput_trace (s : State) (v : Byte) : (emitOutput s v).trace = s.trace ++ [v] := rfl
@[simp] theorem memRead_emitOutput (s : State) (v : Byte) (x : Nibble) : memRead (emitOutput s v) x = memRead s x := rfl

@[simp] theorem setHalted_a (s : State) : (setHalted s).a = s.a := rfl
@[simp] theorem setHalted_b (s : State) : (setHalted s).b = s.b := rfl
@[simp] theorem setHalted_c (s : State) : (setHalted s).c = s.c := rfl
@[simp] theorem setHalted_z (s : State) : (setHalted s).z = s.z := rfl
@[simp] theorem setHalted_pc (s : State) : (setHalted s).pc = s.pc := rfl
@[simp] theorem setHalted_out (s : State) : (setHalted s).out = s.out := rfl
@[simp] theorem setHalted_halted (s : State) : (setHalted s).halted = true := rfl
@[simp] theorem setHalted_ram (s : State) : (setHalted s).ram = s.ram := rfl
@[simp] theorem setHalted_trace (s : State) : (setHalted s).trace = s.trace := rfl
@[simp] theorem memRead_setHalted (s : State) (x : Nibble) : memRead (setHalted s) x = memRead s x := rfl

@[simp] theorem jumpTo_a (s : State) (target : Nibble) : (jumpTo s target).a = s.a := rfl
@[simp] theorem jumpTo_b (s : State) (target : Nibble) : (jumpTo s target).b = s.b := rfl
@[simp] theorem jumpTo_c (s : State) (target : Nibble) : (jumpTo s target).c = s.c := rfl
@[simp] theorem jumpTo_z (s : State) (target : Nibble) : (jumpTo s target).z = s.z := rfl
@[simp] theorem jumpTo_pc (s : State) (target : Nibble) : (jumpTo s target).pc = target := rfl
@[simp] theorem jumpTo_out (s : State) (target : Nibble) : (jumpTo s target).out = s.out := rfl
@[simp] theorem jumpTo_halted (s : State) (target : Nibble) : (jumpTo s target).halted = s.halted := rfl
@[simp] theorem jumpTo_ram (s : State) (target : Nibble) : (jumpTo s target).ram = s.ram := rfl
@[simp] theorem jumpTo_trace (s : State) (target : Nibble) : (jumpTo s target).trace = s.trace := rfl
@[simp] theorem memRead_jumpTo (s : State) (target : Nibble) (x : Nibble) : memRead (jumpTo s target) x = memRead s x := rfl

@[simp] theorem advance_a (s : State) : (advance s).a = s.a := rfl
@[simp] theorem advance_b (s : State) : (advance s).b = s.b := rfl
@[simp] theorem advance_c (s : State) : (advance s).c = s.c := rfl
@[simp] theorem advance_z (s : State) : (advance s).z = s.z := rfl
@[simp] theorem advance_pc (s : State) : (advance s).pc = s.pc + 1 := rfl
@[simp] theorem advance_out (s : State) : (advance s).out = s.out := rfl
@[simp] theorem advance_halted (s : State) : (advance s).halted = s.halted := rfl
@[simp] theorem advance_ram (s : State) : (advance s).ram = s.ram := rfl
@[simp] theorem advance_trace (s : State) : (advance s).trace = s.trace := rfl
@[simp] theorem memRead_advance (s : State) (x : Nibble) : memRead (advance s) x = memRead s x := rfl

@[simp] theorem addToA_a (s : State) (m : Byte) : (addToA s m).a = wrappedSum s.a m := rfl
@[simp] theorem addToA_b (s : State) (m : Byte) : (addToA s m).b = s.b := rfl
@[simp] theorem addToA_c (s : State) (m : Byte) : (addToA s m).c = carryOut s.a m := rfl
@[simp] theorem addToA_z (s : State) (m : Byte) : (addToA s m).z = zeroOf (wrappedSum s.a m) := rfl
@[simp] theorem addToA_pc (s : State) (m : Byte) : (addToA s m).pc = s.pc := rfl
@[simp] theorem addToA_out (s : State) (m : Byte) : (addToA s m).out = s.out := rfl
@[simp] theorem addToA_halted (s : State) (m : Byte) : (addToA s m).halted = s.halted := rfl
@[simp] theorem addToA_ram (s : State) (m : Byte) : (addToA s m).ram = s.ram := rfl
@[simp] theorem addToA_trace (s : State) (m : Byte) : (addToA s m).trace = s.trace := rfl
@[simp] theorem memRead_addToA (s : State) (m : Byte) (x : Nibble) : memRead (addToA s m) x = memRead s x := rfl

@[simp] theorem subFromA_a (s : State) (m : Byte) : (subFromA s m).a = wrappedDifference s.a m := rfl
@[simp] theorem subFromA_b (s : State) (m : Byte) : (subFromA s m).b = s.b := rfl
@[simp] theorem subFromA_c (s : State) (m : Byte) : (subFromA s m).c = noBorrow s.a m := rfl
@[simp] theorem subFromA_z (s : State) (m : Byte) : (subFromA s m).z = zeroOf (wrappedDifference s.a m) := rfl
@[simp] theorem subFromA_pc (s : State) (m : Byte) : (subFromA s m).pc = s.pc := rfl
@[simp] theorem subFromA_out (s : State) (m : Byte) : (subFromA s m).out = s.out := rfl
@[simp] theorem subFromA_halted (s : State) (m : Byte) : (subFromA s m).halted = s.halted := rfl
@[simp] theorem subFromA_ram (s : State) (m : Byte) : (subFromA s m).ram = s.ram := rfl
@[simp] theorem subFromA_trace (s : State) (m : Byte) : (subFromA s m).trace = s.trace := rfl
@[simp] theorem memRead_subFromA (s : State) (m : Byte) (x : Nibble) : memRead (subFromA s m) x = memRead s x := rfl

@[simp] theorem applyReset_a (s : State) : (applyReset s).a = 0x00 := rfl
@[simp] theorem applyReset_b (s : State) : (applyReset s).b = 0x00 := rfl
@[simp] theorem applyReset_c (s : State) : (applyReset s).c = false := rfl
@[simp] theorem applyReset_z (s : State) : (applyReset s).z = false := rfl
@[simp] theorem applyReset_pc (s : State) : (applyReset s).pc = 0 := rfl
@[simp] theorem applyReset_out (s : State) : (applyReset s).out = 0x00 := rfl
@[simp] theorem applyReset_halted (s : State) : (applyReset s).halted = false := rfl
@[simp] theorem applyReset_ram (s : State) : (applyReset s).ram = s.ram := rfl
@[simp] theorem applyReset_trace (s : State) : (applyReset s).trace = [] := rfl
@[simp] theorem memRead_applyReset (s : State) (x : Nibble) : memRead (applyReset s) x = memRead s x := rfl

@[simp] theorem branchIf_a (s : State) (cond : Bool) (target : Nibble) :
    (branchIf s cond target).a = s.a := by cases cond <;> rfl
@[simp] theorem branchIf_b (s : State) (cond : Bool) (target : Nibble) :
    (branchIf s cond target).b = s.b := by cases cond <;> rfl
@[simp] theorem branchIf_c (s : State) (cond : Bool) (target : Nibble) :
    (branchIf s cond target).c = s.c := by cases cond <;> rfl
@[simp] theorem branchIf_z (s : State) (cond : Bool) (target : Nibble) :
    (branchIf s cond target).z = s.z := by cases cond <;> rfl
@[simp] theorem branchIf_pc (s : State) (cond : Bool) (target : Nibble) :
    (branchIf s cond target).pc = if cond then target else s.pc + 1 := by cases cond <;> rfl
@[simp] theorem branchIf_out (s : State) (cond : Bool) (target : Nibble) :
    (branchIf s cond target).out = s.out := by cases cond <;> rfl
@[simp] theorem branchIf_halted (s : State) (cond : Bool) (target : Nibble) :
    (branchIf s cond target).halted = s.halted := by cases cond <;> rfl
@[simp] theorem branchIf_ram (s : State) (cond : Bool) (target : Nibble) :
    (branchIf s cond target).ram = s.ram := by cases cond <;> rfl
@[simp] theorem branchIf_trace (s : State) (cond : Bool) (target : Nibble) :
    (branchIf s cond target).trace = s.trace := by cases cond <;> rfl
@[simp] theorem memRead_branchIf (s : State) (cond : Bool) (target x : Nibble) :
    memRead (branchIf s cond target) x = memRead s x := by cases cond <;> rfl

end Sys2Proof.Machine
end

