-- ==== Sys2Proof/Laws/Memory.lean ====
section
/-! SUPPORT. Memory: a read after a write, and the canonical form kept by every operation (20_memory.md R47 to R49). -/

namespace Sys2Proof.Machine

theorem lookup_erase_same (k : Nat) (m : List Host.Cell) : Memory.lookup k (Memory.erase k m) = Memory.unlisted := by
  induction m with
  | nil => rfl
  | cons p rest ih =>
    by_cases h : p.1 = k
    · simpa [Memory.erase, h] using ih
    · simpa [Memory.erase, Memory.lookup, h] using ih

theorem lookup_erase_other {j k : Nat} (hjk : j ≠ k) (m : List Host.Cell) :
    Memory.lookup j (Memory.erase k m) = Memory.lookup j m := by
  induction m with
  | nil => rfl
  | cons p rest ih =>
    by_cases h : p.1 = k
    · have hj : p.1 ≠ j := fun e => hjk (e ▸ h)
      simpa [Memory.erase, Memory.lookup, h, hj, Ne.symm hjk] using ih
    · by_cases hj : p.1 = j
      · simp [Memory.erase, Memory.lookup, hj, hjk]
      · simpa [Memory.erase, Memory.lookup, h, hj] using ih

theorem lookup_place_other {j k : Nat} (hjk : j ≠ k) (v : Byte) (m : List Host.Cell) :
    Memory.lookup j (Memory.place k v m) = Memory.lookup j m := by
  induction m with
  | nil => simp [Memory.place, Memory.lookup, Ne.symm hjk]
  | cons p rest ih =>
    by_cases h : k < p.1
    · simp [Memory.place, Memory.lookup, h, Ne.symm hjk]
    · simp [Memory.place, Memory.lookup, h, ih]

theorem lookup_place_erase_same (k : Nat) (v : Byte) (m : List Host.Cell) :
    Memory.lookup k (Memory.place k v (Memory.erase k m)) = v := by
  have absent : ∀ l : List Host.Cell, (∀ p ∈ l, p.1 ≠ k) → Memory.lookup k (Memory.place k v l) = v := by
    intro l
    induction l with
    | nil => intro _; simp [Memory.place, Memory.lookup]
    | cons p rest ih =>
      intro hl
      have hp := hl p (by simp)
      have hrest := ih fun q hq => hl q (by simp [hq])
      by_cases h : k < p.1
      · simp [Memory.place, Memory.lookup, h]
      · simpa [Memory.place, Memory.lookup, h, hp] using hrest
  exact absent _ fun p hp => by simpa using (List.mem_filter.mp hp).2

theorem toNat_ne {x y : Nibble} (h : x ≠ y) : x.toNat ≠ y.toNat := fun e => h (BitVec.eq_of_toNat_eq e)

@[simp] theorem read_write_same (m : Memory) (addr : Nibble) (v : Byte) : (m.write addr v).read addr = v := by
  unfold Memory.write Memory.read
  split
  · rw [lookup_erase_same]; exact Eq.symm ‹_›
  · exact lookup_place_erase_same _ _ _

theorem read_write_other (m : Memory) {x addr : Nibble} (h : x ≠ addr) (v : Byte) :
    (m.write addr v).read x = m.read x := by
  unfold Memory.write Memory.read
  split
  · exact lookup_erase_other (toNat_ne h) m
  · rw [lookup_place_other (toNat_ne h), lookup_erase_other (toNat_ne h)]

@[simp] theorem memRead_memWrite_same (s : State) (addr : Nibble) (v : Byte) :
    memRead (memWrite s addr v) addr = v := read_write_same s.ram addr v

theorem memRead_memWrite_other (s : State) {x addr : Nibble} (h : x ≠ addr) (v : Byte) :
    memRead (memWrite s addr v) x = memRead s x := read_write_other s.ram h v

theorem mem_place {k : Nat} {v : Byte} {m : List Host.Cell} {q : Host.Cell} :
    q ∈ Memory.place k v m ↔ q = (k, v) ∨ q ∈ m := by
  induction m with
  | nil => simp [Memory.place]
  | cons p rest ih =>
    by_cases h : k < p.1
    · simp [Memory.place, h]
    · simp only [Memory.place, h, if_false, List.mem_cons, ih]
      exact or_left_comm

theorem pairwise_place {k : Nat} {v : Byte} {m : List Host.Cell} (hk : ∀ p ∈ m, p.1 ≠ k)
    (hm : m.Pairwise (fun p q => p.1 < q.1)) : (Memory.place k v m).Pairwise (fun p q => p.1 < q.1) := by
  induction m with
  | nil => simp [Memory.place]
  | cons p rest ih =>
    obtain ⟨hp, hrest⟩ := List.pairwise_cons.mp hm
    by_cases h : k < p.1
    · simp only [Memory.place, h, if_true]
      refine List.pairwise_cons.mpr ⟨fun q hq => ?_, hm⟩
      rcases List.mem_cons.mp hq with rfl | hq
      · exact h
      · exact Nat.lt_trans h (hp q hq)
    · simp only [Memory.place, h, if_false]
      have hpk := hk p (by simp)
      refine List.pairwise_cons.mpr ⟨fun q hq => ?_, ih (fun q hq => hk q (by simp [hq])) hrest⟩
      rcases mem_place.mp hq with rfl | hq
      · show p.1 < k
        omega
      · exact hp q hq

theorem wf_nil : Memory.wf [] := ⟨List.Pairwise.nil, by simp⟩

theorem wf_erase {m : Memory} (h : m.wf) (k : Nat) : Memory.wf (Memory.erase k m) :=
  ⟨h.1.filter _, fun p hp => h.2 p (List.mem_filter.mp hp).1⟩

theorem wf_write {m : Memory} (h : m.wf) (addr : Nibble) (v : Byte) : (m.write addr v).wf := by
  have he := wf_erase h addr.toNat
  unfold Memory.write
  split
  · exact he
  · refine ⟨pairwise_place (fun p hp => by simpa using (List.mem_filter.mp hp).2) he.1, fun p hp => ?_⟩
    rcases mem_place.mp hp with rfl | hp
    · exact ⟨addr.isLt, ‹_›⟩
    · exact he.2 p hp

theorem mem_imageRam_bounds {bytes : List Byte} {k : Nat} {p : Host.Cell} (hp : p ∈ imageRam k bytes) :
    k ≤ p.1 ∧ p.1 < k + bytes.length ∧ p.2 ≠ Memory.unlisted := by
  induction bytes generalizing k with
  | nil => simp [imageRam] at hp
  | cons v rest ih =>
    have step : p ∈ imageRam (k + 1) rest → k ≤ p.1 ∧ p.1 < k + (v :: rest).length ∧ p.2 ≠ Memory.unlisted := by
      intro h
      obtain ⟨h1, h2, h3⟩ := ih h
      exact ⟨by omega, by simp only [List.length_cons]; omega, h3⟩
    by_cases hv : v = Memory.unlisted
    · rw [imageRam, if_pos hv] at hp
      exact step hp
    · rw [imageRam, if_neg hv] at hp
      rcases List.mem_cons.mp hp with rfl | hp
      · exact ⟨Nat.le_refl _, by simp, hv⟩
      · exact step hp

theorem wf_imageRam {bytes : List Byte} (h : bytes.length ≤ Config.memoryBytes) : (imageRam 0 bytes).wf := by
  have rising : ∀ (l : List Byte) (k : Nat), (imageRam k l).Pairwise (fun p q => p.1 < q.1) := by
    intro l
    induction l with
    | nil => intro k; exact List.Pairwise.nil
    | cons v rest ih =>
      intro k
      unfold imageRam
      split
      · exact ih (k + 1)
      · refine List.pairwise_cons.mpr ⟨fun q hq => ?_, ih (k + 1)⟩
        have := (mem_imageRam_bounds hq).1
        show k < q.1
        omega
  refine ⟨rising bytes 0, fun p hp => ?_⟩
  obtain ⟨-, h2, h3⟩ := mem_imageRam_bounds hp
  exact ⟨by omega, h3⟩

end Sys2Proof.Machine
end

