-- ==== Sys2Proof/Laws/Exec.lean ====
section
/-! SUPPORT. Each meaning as one equation over the shared operations, and the two cases of a step. Later proofs cite these and
the field lemmas of Laws/State.lean instead of unfolding a meaning. -/

namespace Sys2Proof.Machine

theorem exec_nop (n : Nibble) (s : State) : exec (.nop n) s = .next (advance s) := rfl
theorem exec_lda (n : Nibble) (s : State) : exec (.lda n) s = .next (advance (setA s (memRead s n))) := rfl
theorem exec_ldb (n : Nibble) (s : State) : exec (.ldb n) s = .next (advance (setB s (memRead s n))) := rfl
theorem exec_sta (n : Nibble) (s : State) : exec (.sta n) s = .next (advance (memWrite s n s.a)) := rfl
theorem exec_add (n : Nibble) (s : State) : exec (.add n) s = .next (advance (addToA s (memRead s n))) := rfl
theorem exec_adi (n : Nibble) (s : State) : exec (.adi n) s = .next (advance (addToA s (immediateByte n))) := rfl
theorem exec_jmp (n : Nibble) (s : State) : exec (.jmp n) s = .next (jumpTo s n) := rfl
theorem exec_jmpv (n : Nibble) (s : State) : exec (.jmpv n) s = .next (jumpTo s (indirectTarget (memRead s n))) := rfl
theorem exec_jc (n : Nibble) (s : State) : exec (.jc n) s = .next (branchIf s s.c n) := rfl
theorem exec_jz (n : Nibble) (s : State) : exec (.jz n) s = .next (branchIf s s.z n) := rfl
theorem exec_out (n : Nibble) (s : State) : exec (.out n) s = .next (advance (emitOutput s s.a)) := rfl
theorem exec_movaB (n : Nibble) (s : State) : exec (.movaB n) s = .next (advance (setA s s.b)) := rfl
theorem exec_movbA (n : Nibble) (s : State) : exec (.movbA n) s = .next (advance (setB s s.a)) := rfl
theorem exec_ldi (n : Nibble) (s : State) : exec (.ldi n) s = .next (advance (setA s (immediateByte n))) := rfl
theorem exec_sub (n : Nibble) (s : State) : exec (.sub n) s = .next (advance (subFromA s (memRead s n))) := rfl
theorem exec_hlt (n : Nibble) (s : State) : exec (.hlt n) s = .next (advance (setHalted s)) := rfl

theorem immediateByte_toNat (n : Nibble) : (immediateByte n).toNat = n.toNat := by
  simp only [immediateByte, zext8, BitVec.toNat_setWidth]
  omega

theorem indirectTarget_toNat (t : Byte) : (indirectTarget t).toNat = t.toNat % 16 := by
  simp [indirectTarget, BitVec.toNat_setWidth]

theorem step_of_halted {s : State} (h : s.halted = true) : step s = .next s := by
  simp [step, h]

theorem step_of_running {s : State} (h : s.halted = false) : step s = exec (decode (fetch s)) s := by
  simp [step, h]

end Sys2Proof.Machine
end

