-- ==== Sys2Proof/Laws/PerInstr.lean ====
section
/-! SUPPORT. The family Encoding, one lemma per constructor: the two fields of an instruction's byte (30_encoding.md R60, R61). -/

namespace Sys2Proof.Laws.Encoding

/-- The opcode field of the byte selects the instruction's own row, and its operand field is the instruction's operand. -/
def Statement (i : Instr) : Prop :=
  opcodeOfBits (opcodeField (encode i)) = opcodeOf i ∧ operandField (encode i) = operandOf i

theorem nop (n : Nibble) : Statement (.nop n) := ⟨by simp only [encode, opcodeField_joinFields]; rfl, by simp only [encode, operandField_joinFields, operandOf]⟩

theorem lda (n : Nibble) : Statement (.lda n) := ⟨by simp only [encode, opcodeField_joinFields]; rfl, by simp only [encode, operandField_joinFields, operandOf]⟩

theorem ldb (n : Nibble) : Statement (.ldb n) := ⟨by simp only [encode, opcodeField_joinFields]; rfl, by simp only [encode, operandField_joinFields, operandOf]⟩

theorem sta (n : Nibble) : Statement (.sta n) := ⟨by simp only [encode, opcodeField_joinFields]; rfl, by simp only [encode, operandField_joinFields, operandOf]⟩

theorem add (n : Nibble) : Statement (.add n) := ⟨by simp only [encode, opcodeField_joinFields]; rfl, by simp only [encode, operandField_joinFields, operandOf]⟩

theorem adi (n : Nibble) : Statement (.adi n) := ⟨by simp only [encode, opcodeField_joinFields]; rfl, by simp only [encode, operandField_joinFields, operandOf]⟩

theorem jmp (n : Nibble) : Statement (.jmp n) := ⟨by simp only [encode, opcodeField_joinFields]; rfl, by simp only [encode, operandField_joinFields, operandOf]⟩

theorem jmpv (n : Nibble) : Statement (.jmpv n) := ⟨by simp only [encode, opcodeField_joinFields]; rfl, by simp only [encode, operandField_joinFields, operandOf]⟩

theorem jc (n : Nibble) : Statement (.jc n) := ⟨by simp only [encode, opcodeField_joinFields]; rfl, by simp only [encode, operandField_joinFields, operandOf]⟩

theorem jz (n : Nibble) : Statement (.jz n) := ⟨by simp only [encode, opcodeField_joinFields]; rfl, by simp only [encode, operandField_joinFields, operandOf]⟩

theorem out (n : Nibble) : Statement (.out n) := ⟨by simp only [encode, opcodeField_joinFields]; rfl, by simp only [encode, operandField_joinFields, operandOf]⟩

theorem movaB (n : Nibble) : Statement (.movaB n) := ⟨by simp only [encode, opcodeField_joinFields]; rfl, by simp only [encode, operandField_joinFields, operandOf]⟩

theorem movbA (n : Nibble) : Statement (.movbA n) := ⟨by simp only [encode, opcodeField_joinFields]; rfl, by simp only [encode, operandField_joinFields, operandOf]⟩

theorem ldi (n : Nibble) : Statement (.ldi n) := ⟨by simp only [encode, opcodeField_joinFields]; rfl, by simp only [encode, operandField_joinFields, operandOf]⟩

theorem sub (n : Nibble) : Statement (.sub n) := ⟨by simp only [encode, opcodeField_joinFields]; rfl, by simp only [encode, operandField_joinFields, operandOf]⟩

theorem hlt (n : Nibble) : Statement (.hlt n) := ⟨by simp only [encode, opcodeField_joinFields]; rfl, by simp only [encode, operandField_joinFields, operandOf]⟩

end Sys2Proof.Laws.Encoding
end

