-- ==== Sys2Proof/Laws/Run.lean ====
section
/-! SUPPORT. A run of the core, and of the executor, step by step. -/

namespace Sys2Proof.Machine

theorem run_zero (s : State) : Host.Core.run Sys2Proof.core 0 s = .next s := rfl

theorem run_succ_of_step (M : Host.Core) {s t : M.State} (h : M.step s = .next t) (k : Nat) :
    M.run (k + 1) s = M.run k t := by
  rw [Host.Core.run, h]

theorem run_succ {s t : State} (h : step s = .next t) (k : Nat) :
    Host.Core.run Sys2Proof.core (k + 1) s = Host.Core.run Sys2Proof.core k t :=
  run_succ_of_step Sys2Proof.core h k

theorem runBudget_of_halted {s : State} (h : s.halted = true) (budget : Nat) :
    runBudget budget s = { final := s, stepsTaken := 0, haltedNaturally := true } := by
  cases budget <;> simp [runBudget, h]

theorem runBudget_succ {s t : State} (hr : s.halted = false) (h : step s = .next t) (budget : Nat) :
    runBudget (budget + 1) s =
      { runBudget budget t with stepsTaken := (runBudget budget t).stepsTaken + 1 } := by
  simp [runBudget, hr, h]

end Sys2Proof.Machine
end

