-- ==== Sys2Proof/Tests/Slice0.lean ====
section
/-! SUPPORT. Tests. Expected values are the spec's own: 95_test_vectors.md (rows W, T, A, I, S, J, N, P) and the encodings of
30_encoding.md. Then, for every statement with hypotheses, a witness that meets them. -/

namespace Sys2Proof.Tests

open Sys2Proof.Machine

/-- The next state of an outcome. -/
def nextOf : Host.Outcome State Fault Refusal → Option State
  | .next s => some s
  | .fault _ => none
  | .refused _ => none

/-- A reset machine at an address, with these bytes in RAM. -/
def machineAt (pc : Nibble) (cells : Memory) : State := { State.reset with pc := pc, ram := cells }

/-- The state after one step. -/
def after (s : State) : Option State := nextOf (step s)

/-! Well-formedness: each check refuses an ill-formed term. -/

theorem test_declared_length_mismatch_refused : ¬({ declaredLength := 2, bytes := [0xF0] } : ProgramEntry).Admitted := by decide
theorem test_empty_image_refused : ¬({ declaredLength := 0, bytes := [] } : ProgramEntry).Admitted := by decide
theorem test_seventeen_bytes_refused :
    ¬({ declaredLength := 17, bytes := List.replicate 17 0x00 } : ProgramEntry).Admitted := by decide
theorem test_sixteen_bytes_admitted :
    ({ declaredLength := 16, bytes := List.replicate 16 0x00 } : ProgramEntry).Admitted := by decide
theorem test_missing_operand_ill_formed : ¬(AsmItem.instruction .lda none).WellFormed := by decide
theorem test_operand_not_taken_ill_formed : ¬(AsmItem.instruction .hlt (some (.number 0))).WellFormed := by decide
theorem test_operand_sixteen_ill_formed : ¬(AsmItem.instruction .lda (some (.number 16))).WellFormed := by decide
theorem test_byte_256_ill_formed : ¬(AsmItem.byte 256).WellFormed := by decide
theorem test_unlisted_value_not_listed : ¬Memory.wf [(3, 0x00)] := by decide
theorem test_memory_out_of_order : ¬Memory.wf [(3, 0x01), (2, 0x01)] := by decide
theorem test_memory_outside_ram : ¬Memory.wf [(16, 0x01)] := by decide

theorem test_takesOperand_is_not_ignored :
    ∀ op ∈ allOpcodes, op.takesOperand = decide (operandKind op ≠ .ignored) := by decide

/-! Decoding: words written out from the encoding lines of the spec; the operands are those of 95_test_vectors.md 2.1. -/

theorem test_decode_nop : decode 0b00000101#8 = .nop 0b0101 := by decide
theorem test_decode_lda : decode 0b00011111#8 = .lda 0b1111 := by decide
theorem test_decode_ldb : decode 0b00101110#8 = .ldb 0b1110 := by decide
theorem test_decode_sta : decode 0b00111111#8 = .sta 0b1111 := by decide
theorem test_decode_add : decode 0b01001110#8 = .add 0b1110 := by decide
theorem test_decode_adi : decode 0b01010001#8 = .adi 0b0001 := by decide
theorem test_decode_jmp : decode 0b01100000#8 = .jmp 0b0000 := by decide
theorem test_decode_jmpv : decode 0b01111111#8 = .jmpv 0b1111 := by decide
theorem test_decode_jc : decode 0b10000101#8 = .jc 0b0101 := by decide
theorem test_decode_jz : decode 0b10011001#8 = .jz 0b1001 := by decide
theorem test_decode_out : decode 0b10100111#8 = .out 0b0111 := by decide
theorem test_decode_movaB : decode 0b10111001#8 = .movaB 0b1001 := by decide
theorem test_decode_movbA : decode 0b11000000#8 = .movbA 0b0000 := by decide
theorem test_decode_ldi : decode 0b11011010#8 = .ldi 0b1010 := by decide
theorem test_decode_sub : decode 0b11101101#8 = .sub 0b1101 := by decide
theorem test_decode_hlt : decode 0b11111111#8 = .hlt 0b1111 := by decide
theorem test_encode_sub : encode (.sub 13) = 0xED := by decide
theorem test_decodeTableWord : decodeTableWord 8 0x85 = some (.jc 5) := by decide

/-! One step each. -/

/-- T1. -/
theorem test_lda_keeps_flags :
    (after { machineAt 0 [(0, 0x1F), (15, 0x2A)] with c := true, z := true }).map (fun t => (t.a, t.c, t.z, t.pc)) =
      some (0x2A, true, true, 1) := by decide
/-- T3. -/
theorem test_lda_own_byte : (after (machineAt 3 [(3, 0x13)])).map (fun t => (t.a, t.pc)) = some (0x13, 4) := by decide
/-- T4. -/
theorem test_ldb : (after { machineAt 0 [(0, 0x2E), (14, 0x80)] with a := 0x11 }).map (fun t => (t.a, t.b, t.pc)) =
    some (0x11, 0x80, 1) := by decide
/-- T6: the entry of a byte set back to 0 goes. -/
theorem test_sta_over_itself : (after (machineAt 5 [(5, 0x35)])).map (fun t => (t.ram, t.pc)) = some ([], 6) := by decide
/-- T7. -/
theorem test_sta_changes_the_next_instruction :
    ((after { machineAt 2 [(2, 0x33), (3, 0x60)] with a := 0xF0 }).bind after).map (fun t => (t.halted, t.pc)) =
      some (true, 4) := by decide
/-- T9. -/
theorem test_movaB : (after { machineAt 0 [(0, 0xB9)] with b := 0x7F }).map (fun t => (t.a, t.b)) = some (0x7F, 0x7F) := by
  decide
/-- T10. -/
theorem test_movbA : (after { machineAt 0 [(0, 0xC0)] with a := 0x05, b := 0xFF }).map (fun t => (t.a, t.b)) =
    some (0x05, 0x05) := by decide
/-- T11. -/
theorem test_ldi : (after { machineAt 0 [(0, 0xDA)] with a := 0xFF, c := true }).map (fun t => (t.a, t.c, t.z)) =
    some (0x0A, true, false) := by decide
/-- A3. -/
theorem test_add_wraps_to_zero : (after { machineAt 0 [(0, 0x4E), (14, 0xFF)] with a := 0x01 }).map (fun t => (t.a, t.c, t.z)) =
    some (0x00, true, true) := by decide
/-- A10. -/
theorem test_add_own_byte : (after { machineAt 4 [(4, 0x44)] with a := 0x10 }).map (fun t => (t.a, t.c, t.z)) =
    some (0x54, false, false) := by decide
/-- W2, I3. -/
theorem test_adi_carry_and_zero : (after { machineAt 0 [(0, 0x51)] with a := 0xFF }).map (fun t => (t.a, t.c, t.z)) =
    some (0x00, true, true) := by decide
/-- I8. -/
theorem test_adi_rewrites_flags :
    (after { machineAt 0 [(0, 0x50)] with a := 0x05, c := true, z := true }).map (fun t => (t.a, t.c, t.z)) =
      some (0x05, false, false) := by decide
/-- W1, S1. -/
theorem test_sub_borrow : (after { machineAt 0 [(0, 0xEE), (14, 0x01)] with c := true }).map (fun t => (t.a, t.c, t.z)) =
    some (0xFF, false, false) := by decide
/-- S6. -/
theorem test_sub_unsigned : (after { machineAt 0 [(0, 0xEE), (14, 0x7F)] with a := 0x80 }).map (fun t => (t.a, t.c, t.z)) =
    some (0x01, true, false) := by decide
/-- J2. -/
theorem test_jmp_to_itself : after (machineAt 3 [(3, 0x63)]) = some (machineAt 3 [(3, 0x63)]) := by decide
/-- J5. -/
theorem test_jmpv_low_nibble : (after (machineAt 2 [(2, 0x7F), (15, 0xF3)])).map (·.pc) = some 3 := by decide
/-- J8. -/
theorem test_jc_taken : (after { machineAt 2 [(2, 0x85)] with c := true }).map (·.pc) = some 5 := by decide
/-- J10. -/
theorem test_jc_untaken_wraps : (after { machineAt 15 [(15, 0x85)] with z := true }).map (·.pc) = some 0 := by decide
/-- J11. -/
theorem test_jz_taken : (after { machineAt 5 [(5, 0x99)] with z := true }).map (·.pc) = some 9 := by decide
/-- J12. -/
theorem test_jz_untaken : (after { machineAt 5 [(5, 0x99)] with c := true }).map (·.pc) = some 6 := by decide
/-- N1: a zero byte runs as NOP, and PC wraps. -/
theorem test_nop_wraps : after (machineAt 15 []) = some (machineAt 0 []) := by decide
/-- N4. -/
theorem test_out_repeated_value :
    (after { machineAt 0 [(0, 0xA0)] with a := 0x0A, out := 0x0A, trace := [0x0A] }).map (fun t => (t.out, t.trace)) =
      some (0x0A, [0x0A, 0x0A]) := by decide
/-- N7. -/
theorem test_hlt_at_fifteen : (after (machineAt 15 [(15, 0xFF)])).map (fun t => (t.halted, t.pc)) = some (true, 0) := by decide
/-- R80, R153: a halted core stays as it is. -/
theorem test_halted_stays : after { machineAt 0 [(0, 0x51)] with halted := true } =
    some { machineAt 0 [(0, 0x51)] with halted := true } := by decide
theorem test_withFetchWord_runs : (after (State.reset.withFetchWord 8 0xD7)).map (·.a) = some 0x07 := by decide

/-! The block, the executor and the assembler. -/

/-- Section 2.6, `[0xF0]`: one step, PC = 1, halted. -/
theorem test_run_hlt_alone : (match runImage { declaredLength := 1, bytes := [0xF0] } 5 with
    | .next r => some (r.stepsTaken, r.haltedNaturally, r.final.pc)
    | .fault _ => none
    | .refused _ => none) = some (1, true, 1) := by decide
theorem test_bus_of_sta : busAccesses { machineAt 1 [(1, 0x3F)] with a := 0x01 } = [.read 1 0x3F, .write 15 0x01] := by decide
theorem test_bus_of_add : busAccesses (machineAt 0 [(0, 0x4E), (14, 0x03)]) = [.read 0 0x4E, .read 14 0x03] := by decide
/-- P6: the text of the spec assembles to its image (up to the zero fill between 6 and 13, written as `.byte`). -/
theorem test_assemble_p6 : assembleText
    ["loop: LDA 15   ; A <- counter", "OUT", "SUB 14", "STA 0xF", "JC loop", "HLT", ".byte 0", ".byte 0", ".byte 0", ".byte 0",
     ".byte 0", ".byte 0", ".byte 0", ".byte 0", ".byte 1", ".byte 3"] =
    .ok { declaredLength := 16, bytes := [0x1F, 0xA0, 0xEE, 0x3F, 0x80, 0xF0, 0, 0, 0, 0, 0, 0, 0, 0, 0x01, 0x03] } := by decide
theorem test_assemble_operand_too_large : assembleText ["LDA 16"] = .error .operandTooLarge := by decide
theorem test_assemble_label_unbound : assembleText ["JMP there"] = .error .labelUnbound := by decide
theorem test_disassemble_lda : disassemble 0x1F = "LDA 15" := by decide
theorem test_disassemble_ignored_operand : disassemble 0xBA = "MOVA_B; n=0xA" := by decide

/-! Witnesses: states and operands that meet the hypotheses of the statements. -/

theorem witness_encodedAs_lowest_and_highest : (0x10#8).toNat = 0x10 + (0#4).toNat ∧ (0xFF#8).toNat = 0xF0 + (15#4).toNat := by decide
theorem witness_JmpJumpsToItsTarget : (3#4 = (machineAt 3 []).pc) ∧ (0#4).toNat = ((machineAt 15 []).pc.toNat + 1) % 16 := by decide
theorem witness_JcJumps : ({ State.reset with c := true } : State).c = true ∧ State.reset.c = false := by decide
theorem witness_JzJumps : ({ State.reset with z := true } : State).z = true ∧ State.reset.z = false := by decide
theorem witness_ZeroFlag_sum_256 :
    (0x80#8).toNat + (memRead (machineAt 0 [(2, 0x80)]) 2).toNat = 256 ∧ (0xF1#8).toNat + (15#4).toNat = 256 := by decide
theorem witness_readers_and_writers : opcodeOf (.jmp 0) ∉ [Opcode.lda, .add, .adi, .movaB, .ldi, .sub] ∧
    opcodeOf (.lda 0) ∉ [Opcode.sta, .add, .adi, .out, .movbA, .sub] ∧ opcodeOf (.add 0) ∉ [Opcode.ldb, .movbA] ∧
    opcodeOf (.ldb 0) ∉ [Opcode.movaB] ∧ opcodeOf (.jc 0) ∉ [Opcode.add, .adi, .sub] ∧ opcodeOf (.sub 0) ∉ [Opcode.jc] ∧
    opcodeOf (.jc 0) ∉ [Opcode.jz] ∧ opcodeOf (.out 0) = .out ∧ opcodeOf (.nop 0) ≠ .out := by decide
theorem witness_NothingOutsideTheWriteTableChanges :
    nextOf (exec (.ldi 7) State.reset) = some { State.reset with a := 0x07, pc := 1 } ∧ Item.b ∉ writesOf (opcodeOf (.ldi 7)) := by
  decide
/-- Two states that differ in `B` only, and ADI, which does not read it. -/
theorem witness_ResultsDependOnlyOnTheReadTable :
    (∀ x ∈ readsOf (opcodeOf (.adi 1)), AgreeOn (operandOf (.adi 1)) State.reset { State.reset with b := 0x01 } x) ∧
    nextOf (exec (.adi 1) State.reset) = some { State.reset with a := 0x01, pc := 1 } ∧
    nextOf (exec (.adi 1) { State.reset with b := 0x01 }) = some { State.reset with a := 0x01, b := 0x01, pc := 1 } :=
  ⟨fun x hx => by cases List.mem_singleton.mp hx; rfl, by decide, by decide⟩
theorem witness_running_step : State.reset.halted = false ∧ after State.reset = some { State.reset with pc := 1 } := by decide
theorem witness_halted : ({ State.reset with halted := true } : State).halted = true := by decide
theorem witness_PcAdvances_at_fifteen : (machineAt 15 []).pc = 15 ∧ opcodeOf (decode (fetch (machineAt 15 []))) ∉
    [Opcode.jmp, .jmpv, .jc, .jz] ∧ (after (machineAt 15 [])).isSome := by decide
theorem witness_PcAdvances_untaken :
    opcodeOf (decode (fetch (machineAt 2 [(2, 0x85)]))) ∈ [Opcode.jc] ∧ (machineAt 2 [(2, 0x85)]).c = false ∧
    opcodeOf (decode (fetch (machineAt 2 [(2, 0x99)]))) ∈ [Opcode.jz] ∧ (machineAt 2 [(2, 0x99)]).z = false := by decide
/-- STA to the next address, 15 wrapping to 0. -/
theorem witness_StoreIsSeenByTheNextFetch :
    decode (memRead (machineAt 15 [(15, 0x30)]) 15) = .sta 0 ∧ (after (machineAt 15 [(15, 0x30)])).map (·.pc) = some 0 := by decide
theorem witness_RamChanges_written_and_not :
    BusAccess.write 15 0x00 ∈ busAccesses (machineAt 0 [(0, 0x3F)]) ∧
    (∀ v : Byte, BusAccess.write 14 v ∉ busAccesses (machineAt 0 [(0, 0x3F)])) :=
  ⟨by decide, fun v hv => by
    rw [show busAccesses (machineAt 0 [(0, 0x3F)]) = [.read 0 0x3F, .write 15 0x00] by decide] at hv
    simp at hv⟩
theorem witness_invariants : MemoryCanonical (machineAt 0 [(0, 0xA0), (15, 0x01)]) ∧
    LatchMatchesTrace { State.reset with out := 0x02, trace := [0x01, 0x02] } ∧ (after (machineAt 0 [(0, 0xA0)])).isSome := by decide
theorem witness_CanonicalMemory : Memory.wf [(0, 0x01), (15, 0xFF)] ∧
    ∀ addr : Nibble, Memory.read [(0, 0x01), (15, 0xFF)] addr = Memory.read [(0, 0x01), (15, 0xFF)] addr :=
  ⟨by decide, fun _ => rfl⟩
theorem witness_ResetPuts_halted_block :
    (match blockStep { resetLine := false, loaded := true, core := { State.reset with halted := true } } with
      | .next b => b.core.halted
      | .fault _ => false
      | .refused _ => false) = true ∧
    (match hostMove .releaseReset { resetLine := false, loaded := true, core := { State.reset with halted := true } } with
      | .next b => b.core.halted
      | .fault _ => false
      | .refused _ => false) = true ∧
    (nextOf (loadImage { declaredLength := 1, bytes := [0xF0] } State.reset)).isSome ∧ RegistersReset State.reset := by decide
theorem witness_ImageLoad_lengths : ({ declaredLength := 1, bytes := [0xF0] } : ProgramEntry).Admitted ∧
    ({ declaredLength := 16, bytes := List.replicate 16 0xFF } : ProgramEntry).Admitted ∧
    nextOf (loadImage { declaredLength := 1, bytes := [0xF0] } State.reset) = some (machineAt 0 [(0, 0xF0)]) := by decide
theorem witness_OnlyAdmitted_refused_with_a_budget : ¬(17 = (List.replicate 17 (0x00 : Byte)).length ∧
    1 ≤ (List.replicate 17 (0x00 : Byte)).length ∧ (List.replicate 17 (0x00 : Byte)).length ≤ 16) ∧ 0 < 1 := by decide
theorem witness_CoreIsHeld :
    (match hostMove (.loadImage { declaredLength := 1, bytes := [0xF0] })
        { resetLine := true, loaded := false, core := State.reset } with
      | .next b => b.resetLine
      | .fault _ => false
      | .refused _ => false) = true ∧
    (match blockStep { resetLine := true, loaded := true, core := State.reset } with
      | .next b => b.resetLine
      | .fault _ => false
      | .refused _ => false) = true := by decide
theorem witness_HostNeverWrites :
    (match hostMove .assertReset { resetLine := false, loaded := true, core := State.reset } with
      | .next b => b.resetLine
      | .fault _ => false
      | .refused _ => false) = true := by decide
theorem witness_RunEnds : (machineAt 0 [(0, 0xF0)]).halted = false ∧ opcodeOf (decode (fetch (machineAt 0 [(0, 0xF0)]))) = .hlt := by
  decide
theorem witness_Executor_clauses : (runBudget 2 State.reset).haltedNaturally = false ∧ 1 < (runBudget 2 State.reset).stepsTaken ∧
    (runBudget 2 (machineAt 0 [(0, 0xF0)])).haltedNaturally = true := by decide
theorem witness_JumpToItself : decode (memRead (machineAt 3 [(3, 0x63)]) 3) = .jmp 3 := by decide
theorem witness_AssembledLines : assembleItem [] (.instruction .lda (some (.number 15))) = .ok 0x1F ∧
    assembleItem [] (.instruction .hlt none) = .ok 0xF0 := by decide
theorem witness_DisassemblyLosesNoByte : disassemble 0x05 = disassemble 0x05 := rfl

end Sys2Proof.Tests
end

section
/-! SUPPORT. What an instruction does with one part of the state: the readers and the writers of `B`, `C` and `Z`
(10_state.md R22, R26, R27, R34). -/

namespace Sys2Proof.Machine

/-! The next state of an instruction. -/

/-- The state an instruction leaves. `exec_eq_next_nextState` says that every instruction leaves one. -/
def nextState (i : Instr) (s : State) : State :=
  match exec i s with
  | .next t => t
  | .fault _ => s
  | .refused _ => s

theorem exec_eq_next_nextState (i : Instr) (s : State) : exec i s = .next (nextState i s) := by
  cases i <;> rfl

/-! The roles of the instructions for one part of the state. -/

/-- A part of the state, by its read and its write. -/
structure StatePart (α : Type) where
  get : State → α
  put : State → α → State
  get_put : ∀ s v, get (put s v) = v
  put_get : ∀ s, put s (get s) = s

/-- No instruction but the writers changes the part, and none but the readers uses it. A writer's next state forgets the old
value. Every other instruction carries a new value through unchanged; a reader does so where the value is not new. -/
structure StatePart.Roles {α : Type} (P : StatePart α) (writers readers : List Opcode) : Prop where
  overwrites : ∀ (i : Instr) (s : State) (v : α), opcodeOf i ∈ writers → nextState i (P.put s v) = nextState i s
  carries : ∀ (i : Instr) (s : State) (v : α), opcodeOf i ∉ writers → (opcodeOf i ∈ readers → v = P.get s) →
    nextState i (P.put s v) = P.put (nextState i s) v

section
variable {α : Type} {P : StatePart α} {writers readers : List Opcode}

/-- The frame is `carries` at the value the part already has. -/
theorem StatePart.Roles.get_nextState (h : P.Roles writers readers)
    {i : Instr} (hw : opcodeOf i ∉ writers) (s : State) : P.get (nextState i s) = P.get s := by
  have carried : nextState i s = P.put (nextState i s) (P.get s) :=
    calc nextState i s
      _ = nextState i (P.put s (P.get s)) := by rw [P.put_get]
      _ = P.put (nextState i s) (P.get s) := h.carries i s _ hw fun _ => rfl
  rw [carried, P.get_put]

theorem StatePart.Roles.nextState_put (h : P.Roles writers readers)
    {i : Instr} (hr : opcodeOf i ∉ readers) (s : State) (v : α) :
    nextState i (P.put s v) =
      P.put (nextState i s) (if opcodeOf i ∈ writers then P.get (nextState i s) else v) := by
  by_cases hw : opcodeOf i ∈ writers
  · rw [if_pos hw, P.put_get, h.overwrites i s v hw]
  · rw [if_neg hw, h.carries i s v hw fun hr' => absurd hr' hr]

/-- The form in which the statements about readers and writers say it. -/
theorem StatePart.Roles.exec_put (h : P.Roles writers readers)
    (i : Instr) (s : State) (v : α) :
    ∃ t, exec i s = .next t ∧ (opcodeOf i ∉ writers → P.get t = P.get s) ∧
      (opcodeOf i ∉ readers →
        exec i (P.put s v) = .next (P.put t (if opcodeOf i ∈ writers then P.get t else v))) :=
  ⟨nextState i s, exec_eq_next_nextState i s, fun hw => h.get_nextState hw s,
    fun hr => by rw [exec_eq_next_nextState, h.nextState_put hr]⟩

end

/-! The auxiliary register (R22). -/

theorem branchIf_setB (s : State) (v : Byte) (cond : Bool) (target : Nibble) :
    branchIf (setB s v) cond target = setB (branchIf s cond target) v := by
  cases cond <;> rfl

theorem nextState_setB_of_mem {i : Instr} (h : opcodeOf i ∈ [Opcode.ldb, .movbA]) (s : State) (v : Byte) :
    nextState i (setB s v) = nextState i s := by
  cases i with
  | ldb n | movbA n => rfl
  | _ => simp [opcodeOf] at h

theorem nextState_setB_of_notMem {i : Instr} {s : State} {v : Byte} (hw : opcodeOf i ∉ [Opcode.ldb, .movbA])
    (hr : opcodeOf i = .movaB → v = s.b) : nextState i (setB s v) = setB (nextState i s) v := by
  cases i with
  | ldb n | movbA n => simp [opcodeOf] at hw
  | movaB n => rw [hr rfl]; rfl
  | jc n => exact branchIf_setB s v s.c n
  | jz n => exact branchIf_setB s v s.z n
  | nop n | lda n | sta n | add n | adi n | jmp n | jmpv n | out n | ldi n | sub n | hlt n => rfl

/-- `B`. -/
def auxiliary : StatePart Byte where
  get s := s.b
  put := setB
  get_put := setB_b
  put_get _ := rfl

theorem auxiliary_roles : auxiliary.Roles [.ldb, .movbA] [.movaB] where
  overwrites _ s v hw := nextState_setB_of_mem hw s v
  carries _ _ _ hw hr := nextState_setB_of_notMem hw fun h => hr (by simp [h])

/-- Settles O28, by the roles of the instructions for `B` (R22). -/
theorem auxiliaryReadersAndWriters : Obligations.AuxiliaryReadersAndWriters :=
  ⟨rfl, auxiliary_roles.exec_put⟩

/-! The two flags (R26, R27), together: ADD, ADI and SUB overwrite both, and only JC and JZ read one. -/

theorem branchIf_setFlags (s : State) (c z cond : Bool) (target : Nibble) :
    branchIf (setFlags s c z) cond target = setFlags (branchIf s cond target) c z := by
  cases cond <;> rfl

theorem nextState_setFlags_of_mem {i : Instr} (h : opcodeOf i ∈ [Opcode.add, .adi, .sub]) (s : State) (c z : Bool) :
    nextState i (setFlags s c z) = nextState i s := by
  cases i with
  | add n | adi n | sub n => rfl
  | _ => simp [opcodeOf] at h

theorem nextState_setFlags_of_notMem {i : Instr} {s : State} {c z : Bool}
    (hw : opcodeOf i ∉ [Opcode.add, .adi, .sub]) (hc : opcodeOf i = .jc → c = s.c) (hz : opcodeOf i = .jz → z = s.z) :
    nextState i (setFlags s c z) = setFlags (nextState i s) c z := by
  cases i with
  | add n | adi n | sub n => simp [opcodeOf] at hw
  | jc n => rw [hc rfl]; exact branchIf_setFlags s s.c z s.c n
  | jz n => rw [hz rfl]; exact branchIf_setFlags s c s.z s.z n
  | nop n | lda n | ldb n | sta n | jmp n | jmpv n | out n | movaB n | movbA n | ldi n | hlt n => rfl

theorem sameFlags_nextState {i : Instr} (hw : opcodeOf i ∉ [Opcode.add, .adi, .sub]) (s : State) :
    SameFlags s (nextState i s) := by
  have carried : nextState i s = setFlags (nextState i s) s.c s.z :=
    nextState_setFlags_of_notMem (s := s) hw (fun _ => rfl) (fun _ => rfl)
  rw [carried]
  exact ⟨rfl, rfl⟩

/-- `C`. -/
def carryFlag : StatePart Bool where
  get s := s.c
  put s c := setFlags s c s.z
  get_put s c := setFlags_c s c s.z
  put_get _ := rfl

theorem carryFlag_roles : carryFlag.Roles [.add, .adi, .sub] [.jc] where
  overwrites _ s c hw := nextState_setFlags_of_mem hw s c s.z
  carries i s c hw hr := by
    obtain ⟨-, same_z⟩ := sameFlags_nextState hw s
    calc nextState i (setFlags s c s.z)
      _ = setFlags (nextState i s) c s.z :=
        nextState_setFlags_of_notMem hw (fun h => hr (by simp [h])) fun _ => rfl
      _ = setFlags (nextState i s) c (nextState i s).z := by rw [same_z]

/-- Settles O29, by the roles of the instructions for `C` (R26). -/
theorem carryReadersAndWriters : Obligations.CarryReadersAndWriters :=
  ⟨rfl, carryFlag_roles.exec_put⟩

/-- `Z`. -/
def zeroFlag : StatePart Bool where
  get s := s.z
  put s z := setFlags s s.c z
  get_put s z := setFlags_z s s.c z
  put_get _ := rfl

theorem zeroFlag_roles : zeroFlag.Roles [.add, .adi, .sub] [.jz] where
  overwrites _ s z hw := nextState_setFlags_of_mem hw s s.c z
  carries i s z hw hr := by
    obtain ⟨same_c, -⟩ := sameFlags_nextState hw s
    calc nextState i (setFlags s s.c z)
      _ = setFlags (nextState i s) s.c z :=
        nextState_setFlags_of_notMem hw (fun _ => rfl) fun h => hr (by simp [h])
      _ = setFlags (nextState i s) (nextState i s).c z := by rw [same_c]

/-- Settles O30, by the roles of the instructions for `Z` (R27). -/
theorem zeroReadersAndWriters : Obligations.ZeroReadersAndWriters :=
  ⟨rfl, zeroFlag_roles.exec_put⟩

end Sys2Proof.Machine
end

section
/-! SUPPORT. Bytes and instructions correspond one to one (30_encoding.md R60, R61), and an ignored operand has no effect (R65). -/

namespace Sys2Proof.Machine

/-! The correspondence (R60). -/

theorem encode_fields : ∀ i : Instr, Laws.Encoding.Statement i
  | .nop n => Laws.Encoding.nop n
  | .lda n => Laws.Encoding.lda n
  | .ldb n => Laws.Encoding.ldb n
  | .sta n => Laws.Encoding.sta n
  | .add n => Laws.Encoding.add n
  | .adi n => Laws.Encoding.adi n
  | .jmp n => Laws.Encoding.jmp n
  | .jmpv n => Laws.Encoding.jmpv n
  | .jc n => Laws.Encoding.jc n
  | .jz n => Laws.Encoding.jz n
  | .out n => Laws.Encoding.out n
  | .movaB n => Laws.Encoding.movaB n
  | .movbA n => Laws.Encoding.movbA n
  | .ldi n => Laws.Encoding.ldi n
  | .sub n => Laws.Encoding.sub n
  | .hlt n => Laws.Encoding.hlt n

@[simp] theorem decode_encode (i : Instr) : decode (encode i) = i := by
  obtain ⟨opcode_eq, operand_eq⟩ := encode_fields i
  rw [decode, opcode_eq, operand_eq, instrOf_opcodeOf_operandOf]

/-- The bit patterns of R61 are the opcode numbers in binary. -/
theorem opcodeNumber_opcodeOfBits : ∀ op : Nibble, opcodeNumber (opcodeOfBits op) = op.toNat := by decide

theorem toNat_eq_of_decode (ir : Byte) :
    ir.toNat = opcodeNumber (opcodeOf (decode ir)) * 16 + (operandOf (decode ir)).toNat := by
  rw [decode, opcodeOf_instrOf, operandOf_instrOf, opcodeNumber_opcodeOfBits, opcodeField_toNat, operandField_toNat,
    Nat.div_add_mod']

theorem decode_injective : Function.Injective decode := fun ir ir' same =>
  BitVec.eq_of_toNat_eq (by rw [toNat_eq_of_decode ir, same, ← toNat_eq_of_decode ir'])

/-- The byte and the one its instruction is encoded as decode to the same instruction, so they are one byte. -/
@[simp] theorem encode_decode (ir : Byte) : encode (decode ir) = ir :=
  decode_injective (decode_encode (decode ir))

/-- Settles O1, by the fields of every encoded byte and the injectivity of `decode` (R60). -/
theorem bytesAndInstructionsCorrespond : Obligations.BytesAndInstructionsCorrespond :=
  ⟨decode_encode, encode_decode, toNat_eq_of_decode⟩

/-! The "Encoding" line of an instruction's rule, and the operands that are ignored (R65). -/

theorem encode_instrOf_toNat (op : Opcode) (n : Nibble) :
    (encode (instrOf op n)).toNat = opcodeNumber op * 16 + n.toNat := by
  rw [toNat_eq_of_decode, decode_encode, opcodeOf_instrOf, operandOf_instrOf]

theorem encodedAs_instrOf (op : Opcode) (n : Nibble) : EncodedAs (instrOf op n) (opcodeNumber op * 16) n := by
  intro ir ir_number
  have ir_eq : encode (instrOf op n) = ir :=
    BitVec.eq_of_toNat_eq (by rw [encode_instrOf_toNat, ir_number])
  exact ⟨by rw [← ir_eq, decode_encode], ir_eq⟩

theorem exec_instrOf_of_ignored {op : Opcode} (ignored : operandKind op = .ignored) (n m : Nibble) (s : State) :
    exec (instrOf op n) s = exec (instrOf op m) s := by
  cases op with
  | nop | out | movaB | movbA | hlt => rfl
  | lda | ldb | sta | add | adi | jmp | jmpv | jc | jz | ldi | sub => cases ignored

/-- Settles O3: each of the five opcodes is of the kind whose operand is ignored (R65). -/
theorem ignoredOperandsHaveNoEffect : Obligations.IgnoredOperandsHaveNoEffect := by
  intro n m s
  have accepted_and_ignored (op : Opcode) (ignored : operandKind op = .ignored) :
      EncodedAs (instrOf op n) (opcodeNumber op * 16) n ∧ exec (instrOf op n) s = exec (instrOf op m) s :=
    ⟨encodedAs_instrOf op n, exec_instrOf_of_ignored ignored n m s⟩
  exact ⟨accepted_and_ignored .nop rfl, accepted_and_ignored .out rfl, accepted_and_ignored .movaB rfl,
    accepted_and_ignored .movbA rfl, accepted_and_ignored .hlt rfl,
    fun i _ => ⟨nextState i s, exec_eq_next_nextState i s⟩⟩

end Sys2Proof.Machine
end

section
/-! SUPPORT. The step of a core that is not halted (40_cycle.md R81). -/

namespace Sys2Proof.Machine

/-! The split of a byte: its opcode is the high nibble, its operand the low one (R12, R60). -/

theorem opcodeNumber_opcodeOf_decode (ir : Byte) : opcodeNumber (opcodeOf (decode ir)) = ir.toNat / 16 := by
  rw [decode, opcodeOf_instrOf, opcodeNumber_opcodeOfBits, opcodeField_toNat]

theorem operandOf_decode_toNat (ir : Byte) : (operandOf (decode ir)).toNat = ir.toNat % 16 := by
  rw [decode, operandOf_instrOf, operandField_toNat]

/-- Settles O35: the byte fetched is the byte at `PC`, its fields are its two nibbles, and a running core executes its
instruction (R81). -/
theorem stepRunsTheInstructionAtThePc : Obligations.StepRunsTheInstructionAtThePc := by
  intro s running
  exact ⟨opcodeNumber_opcodeOf_decode (memRead s s.pc), operandOf_decode_toNat (memRead s s.pc), step_of_running running⟩

end Sys2Proof.Machine
end

section
/-! SUPPORT. The data transfer instructions (41_transfer.md R100 to R105): the value moved, and the frame of the three updates
they share, one each for `A`, `B` and RAM. -/

namespace Sys2Proof.Machine

/-! The updates followed by `PC <- next`. -/

/-- What was updated before `PC <- next` does not matter here, as long as it left `PC` alone. -/
theorem pcAdvances_advance {s u : State} (same_pc : u.pc = s.pc) : PcAdvances s (advance u) := by
  rw [PcAdvances, advance_pc, same_pc, BitVec.toNat_add]
  rfl

theorem advance_setA_frame (s : State) (v : Byte) :
    PcAdvances s (advance (setA s v)) ∧ (advance (setA s v)).b = s.b ∧ SameFlags s (advance (setA s v)) ∧
      SameOutput s (advance (setA s v)) ∧ (advance (setA s v)).halted = s.halted ∧ SameMemory s (advance (setA s v)) :=
  ⟨pcAdvances_advance (setA_pc s v), setA_b s v, ⟨setA_c s v, setA_z s v⟩, ⟨setA_out s v, setA_trace s v⟩,
    setA_halted s v, memRead_setA s v⟩

theorem advance_setB_frame (s : State) (v : Byte) :
    PcAdvances s (advance (setB s v)) ∧ (advance (setB s v)).a = s.a ∧ SameFlags s (advance (setB s v)) ∧
      SameOutput s (advance (setB s v)) ∧ (advance (setB s v)).halted = s.halted ∧ SameMemory s (advance (setB s v)) :=
  ⟨pcAdvances_advance (setB_pc s v), setB_a s v, ⟨setB_c s v, setB_z s v⟩, ⟨setB_out s v, setB_trace s v⟩,
    setB_halted s v, memRead_setB s v⟩

theorem advance_memWrite_frame (s : State) (addr : Nibble) (v : Byte) :
    SameMemoryBut addr s (advance (memWrite s addr v)) ∧ PcAdvances s (advance (memWrite s addr v)) ∧
      (advance (memWrite s addr v)).a = s.a ∧ (advance (memWrite s addr v)).b = s.b ∧
      SameFlags s (advance (memWrite s addr v)) ∧ SameOutput s (advance (memWrite s addr v)) ∧
      (advance (memWrite s addr v)).halted = s.halted :=
  ⟨fun _ other => memRead_memWrite_other s other v, pcAdvances_advance (memWrite_pc s addr v), memWrite_a s addr v,
    memWrite_b s addr v, ⟨memWrite_c s addr v, memWrite_z s addr v⟩, ⟨memWrite_out s addr v, memWrite_trace s addr v⟩,
    memWrite_halted s addr v⟩

/-! The six instructions. -/

/-- Settles O4: LDA is `A <- RAM[n]`, then `PC <- next` (R100). -/
theorem ldaLoadsAccumulatorFromMemory : Obligations.LdaLoadsAccumulatorFromMemory := fun n s =>
  ⟨encodedAs_instrOf .lda n, _, exec_lda n s, setA_a s (memRead s n), advance_setA_frame s (memRead s n)⟩

/-- Settles O5: LDB is `B <- RAM[n]`, then `PC <- next` (R101). -/
theorem ldbLoadsAuxiliaryFromMemory : Obligations.LdbLoadsAuxiliaryFromMemory := fun n s =>
  ⟨encodedAs_instrOf .ldb n, _, exec_ldb n s, setB_b s (memRead s n), advance_setB_frame s (memRead s n)⟩

/-- Settles O6: STA is `RAM[n] <- A`, then `PC <- next`, and a read after a write gives the byte written at its address and
the old byte at every other (R102). -/
theorem staStoresAccumulatorAtItsAddress : Obligations.StaStoresAccumulatorAtItsAddress := fun n s =>
  ⟨encodedAs_instrOf .sta n, _, exec_sta n s, memRead_memWrite_same s n s.a, rfl, advance_memWrite_frame s n s.a⟩

/-- Settles O7: MOVA_B is `A <- B`, then `PC <- next` (R103). -/
theorem movaBCopiesAuxiliaryToAccumulator : Obligations.MovaBCopiesAuxiliaryToAccumulator := fun n s =>
  ⟨encodedAs_instrOf .movaB n, _, exec_movaB n s, setA_a s s.b, advance_setA_frame s s.b⟩

/-- Settles O8: MOVB_A is `B <- A`, then `PC <- next` (R104). -/
theorem movbACopiesAccumulatorToAuxiliary : Obligations.MovbACopiesAccumulatorToAuxiliary := fun n s =>
  ⟨encodedAs_instrOf .movbA n, _, exec_movbA n s, setB_b s s.a, advance_setB_frame s s.a⟩

/-- Settles O9: LDI is `A <- zext_8(imm)`, then `PC <- next`, and the extension keeps the number (R105). -/
theorem ldiLoadsZeroExtendedImmediate : Obligations.LdiLoadsZeroExtendedImmediate := fun n s =>
  ⟨encodedAs_instrOf .ldi n, _, exec_ldi n s, immediateByte_toNat n, advance_setA_frame s (immediateByte n)⟩

end Sys2Proof.Machine
end

section
/-! SUPPORT. The arithmetic instructions (42_arithmetic.md R110 to R115): the result, the two flags, and the frame that ADD, ADI
and SUB share. -/

namespace Sys2Proof.Machine

/-! The result and the flags, in numbers (R110 to R112). -/

theorem zeroOf_iff_eq_zero (r : Byte) : zeroOf r = true ↔ r = 0 := beq_iff_eq

theorem zeroOf_wrappedSum_iff (a m : Byte) : zeroOf (wrappedSum a m) = true ↔ (a.toNat + m.toNat) % 256 = 0 := by
  rw [zeroOf_iff, wrappedSum_toNat]

/-- The one sum that is not 0 itself and wraps to 0 (R110). -/
theorem zeroOf_wrappedSum_of_sum_eq {a m : Byte} (sum : a.toNat + m.toNat = 256) : zeroOf (wrappedSum a m) = true := by
  rw [zeroOf_wrappedSum_iff, sum]

theorem noBorrow_eq_false_iff (a m : Byte) : noBorrow a m = false ↔ a.toNat < m.toNat := by
  rw [← Bool.not_eq_true, noBorrow_iff, Nat.not_le]

/-- The remainder of the exact difference, which may be negative, is the wrapped difference (R115). -/
theorem wrappedDifference_toNat_eq_emod (a m : Byte) :
    ((wrappedDifference a m).toNat : Int) = ((a.toNat : Int) - (m.toNat : Int)) % 256 := by
  calc ((wrappedDifference a m).toNat : Int)
    _ = ((exactDifference a m % 256).toNat : Int) := by rw [wrappedDifference, BitVec.toNat_ofInt]; rfl
    _ = exactDifference a m % 256 := Int.toNat_of_nonneg (Int.emod_nonneg _ (by decide))

/-! The instructions: `A` and the flags written, then `PC <- next`. -/

/-- `addToA` and `subFromA` are this update, each with its own result and flags. -/
theorem advance_setFlags_setA_frame (s : State) (r : Byte) (c z : Bool) :
    let t := advance (setFlags (setA s r) c z)
    PcAdvances s t ∧ t.b = s.b ∧ SameOutput s t ∧ t.halted = s.halted ∧ SameMemory s t :=
  ⟨pcAdvances_advance (setA_pc s r), setA_b s r, ⟨setA_out s r, setA_trace s r⟩, setA_halted s r, memRead_setA s r⟩

/-- What ADD and ADI have in common: the second operand `m` is a byte of RAM for the one, the immediate for the other. -/
theorem advance_addToA_spec (s : State) (m : Byte) :
    let t := advance (addToA s m)
    t.a.toNat = (s.a.toNat + m.toNat) % 256 ∧ (t.c = true ↔ s.a.toNat + m.toNat > 255) ∧
      (t.z = true ↔ (s.a.toNat + m.toNat) % 256 = 0) ∧
      PcAdvances s t ∧ t.b = s.b ∧ SameOutput s t ∧ t.halted = s.halted ∧ SameMemory s t :=
  ⟨wrappedSum_toNat s.a m, carryOut_iff s.a m, zeroOf_wrappedSum_iff s.a m, advance_setFlags_setA_frame s _ _ _⟩

/-- Settles O10: ADD is `A <- A + RAM[n]` with its flags, then `PC <- next` (R113). -/
theorem addAddsMemoryToAccumulator : Obligations.AddAddsMemoryToAccumulator := fun n s =>
  ⟨encodedAs_instrOf .add n, _, exec_add n s, advance_addToA_spec s (memRead s n)⟩

/-- Settles O11: ADI is `A <- A + zext_8(imm)` with its flags, then `PC <- next`, and the extension keeps the number (R114). -/
theorem adiAddsImmediateToAccumulator : Obligations.AdiAddsImmediateToAccumulator := by
  intro n s
  rw [← immediateByte_toNat n]
  exact ⟨encodedAs_instrOf .adi n, _, exec_adi n s, advance_addToA_spec s (immediateByte n)⟩

/-- Settles O12: SUB is `A <- A - RAM[n]` with its flags, then `PC <- next` (R115). -/
theorem subSubtractsMemoryFromAccumulator : Obligations.SubSubtractsMemoryFromAccumulator := fun n s =>
  ⟨encodedAs_instrOf .sub n, _, exec_sub n s, wrappedDifference_toNat_eq_emod s.a (memRead s n),
    noBorrow_iff s.a (memRead s n), zeroOf_iff (wrappedDifference s.a (memRead s n)), advance_setFlags_setA_frame s _ _ _⟩

/-! The flag rules. -/

/-- Settles O20: all three test the byte they write to `A`, which a sum of 256 makes 0 (R110). -/
theorem zeroFlagFollowsTheWrappedResult : Obligations.ZeroFlagFollowsTheWrappedResult := by
  intro n s
  rw [← immediateByte_toNat n]
  exact ⟨⟨_, exec_add n s, zeroOf_iff_eq_zero _, zeroOf_wrappedSum_of_sum_eq⟩,
    ⟨_, exec_adi n s, zeroOf_iff_eq_zero _, zeroOf_wrappedSum_of_sum_eq⟩,
    ⟨_, exec_sub n s, zeroOf_iff_eq_zero _⟩⟩

/-- Settles O21: `C` is the carry out of the exact sum, with the immediate taken at its own number (R111). -/
theorem carryFlagOfAdditionIsTheCarryOut : Obligations.CarryFlagOfAdditionIsTheCarryOut := by
  intro n s
  rw [← immediateByte_toNat n]
  exact ⟨⟨_, exec_add n s, carryOut_iff s.a (memRead s n)⟩, ⟨_, exec_adi n s, carryOut_iff s.a (immediateByte n)⟩⟩

/-- Settles O22: `C` compares the two numbers as they stood before the subtraction (R112). -/
theorem carryFlagOfSubtractionIsNoBorrow : Obligations.CarryFlagOfSubtractionIsNoBorrow := fun n s =>
  ⟨_, exec_sub n s, noBorrow_iff s.a (memRead s n), noBorrow_eq_false_iff s.a (memRead s n)⟩

end Sys2Proof.Machine
end

section
/-! SUPPORT. The jumps to a direct target (43_control.md R120, R122, R123): where `PC` goes, and the frame of `PC <- target`,
which JMP and both outcomes of JC and JZ share. -/

namespace Sys2Proof.Machine

/-! JMP (R120): a write of `PC` and nothing else. -/

theorem jumpTo_frame (s : State) (target : Nibble) :
    let t := jumpTo s target
    t.a = s.a ∧ t.b = s.b ∧ SameFlags s t ∧ SameOutput s t ∧ t.halted = s.halted ∧ SameMemory s t :=
  ⟨jumpTo_a s target, jumpTo_b s target, ⟨jumpTo_c s target, jumpTo_z s target⟩,
    ⟨jumpTo_out s target, jumpTo_trace s target⟩, jumpTo_halted s target, memRead_jumpTo s target⟩

theorem jumpTo_self (s : State) : jumpTo s s.pc = s := rfl

/-- `PcAdvances` gives the number of `next`, and a number below 16 is the number of one nibble. -/
theorem eq_nextAddress_of_toNat {s : State} {target : Nibble} (is_next : target.toNat = (s.pc.toNat + 1) % 16) :
    target = nextAddress s := by
  have next_number : (nextAddress s).toNat = (s.pc.toNat + 1) % 16 := pcAdvances_advance (s := s) rfl
  exact BitVec.eq_of_toNat_eq (is_next.trans next_number.symm)

/-- Settles O13: JMP is `PC <- n`; at its own address that is no change, and to `next` it is what NOP does (R120). -/
theorem jmpJumpsToItsTarget : Obligations.JmpJumpsToItsTarget := by
  intro n s
  refine ⟨encodedAs_instrOf .jmp n, ⟨_, exec_jmp n s, jumpTo_pc s n, ?_, jumpTo_frame s n⟩, ?_⟩
  · rintro rfl
    exact jumpTo_self s
  · intro is_next m
    rw [exec_jmp, exec_nop, advance, eq_nextAddress_of_toNat is_next]

/-! JC and JZ (R122, R123): the same branch on two different flags. -/

/-- Taken or not, a branch is one write of `PC`. -/
theorem branchIf_eq_jumpTo (s : State) (cond : Bool) (target : Nibble) :
    branchIf s cond target = jumpTo s (if cond then target else nextAddress s) := by
  cases cond with
  | true => rfl
  | false => rfl

theorem branchIf_frame (s : State) (cond : Bool) (target : Nibble) :
    let t := branchIf s cond target
    t.a = s.a ∧ t.b = s.b ∧ SameFlags s t ∧ SameOutput s t ∧ t.halted = s.halted ∧ SameMemory s t := by
  rw [branchIf_eq_jumpTo]
  exact jumpTo_frame s _

theorem branchIf_spec (s : State) (cond : Bool) (target : Nibble) :
    let t := branchIf s cond target
    (cond = true → t.pc = target) ∧ (cond = false → PcAdvances s t) ∧
      t.a = s.a ∧ t.b = s.b ∧ SameFlags s t ∧ SameOutput s t ∧ t.halted = s.halted ∧ SameMemory s t := by
  refine ⟨?taken, ?untaken, branchIf_frame s cond target⟩
  case taken =>
    rintro rfl
    exact jumpTo_pc s target
  case untaken =>
    rintro rfl
    exact pcAdvances_advance rfl

/-- Settles O15: JC is the branch on `C` (R122). -/
theorem jcJumpsExactlyWhenCarryIsSet : Obligations.JcJumpsExactlyWhenCarryIsSet := fun n s =>
  ⟨encodedAs_instrOf .jc n, _, exec_jc n s, branchIf_spec s s.c n⟩

/-- Settles O16: JZ is the branch on `Z` (R123). -/
theorem jzJumpsExactlyWhenZeroIsSet : Obligations.JzJumpsExactlyWhenZeroIsSet := fun n s =>
  ⟨encodedAs_instrOf .jz n, _, exec_jz n s, branchIf_spec s s.z n⟩

end Sys2Proof.Machine
end

section
/-! SUPPORT. NOP (44_system.md R130): the advance of `PC` that every instruction makes, and nothing besides it. -/

namespace Sys2Proof.Machine

/-- Settles O17: NOP is `PC <- next`, and a write of `PC` leaves the rest of the state alone (R130). -/
theorem nopOnlyAdvancesThePc : Obligations.NopOnlyAdvancesThePc := fun n s =>
  ⟨encodedAs_instrOf .nop n, _, exec_nop n s, pcAdvances_advance rfl, jumpTo_frame s (nextAddress s)⟩

end Sys2Proof.Machine
end

section
/-! SUPPORT. Admission of an image (70_reset_and_hazards.md R164): what the load and the executor's run answer to an entry the
host must refuse. -/

namespace Sys2Proof.Machine

/-- Admission with the bounds of R164 as numbers. -/
theorem admitted_iff (e : ProgramEntry) :
    e.Admitted ↔ e.declaredLength = e.bytes.length ∧ 1 ≤ e.bytes.length ∧ e.bytes.length ≤ 16 := Iff.rfl

theorem loadImage_of_admitted {e : ProgramEntry} (admitted : e.Admitted) (s : State) :
    loadImage e s = .next { s with ram := imageRam 0 e.bytes } := if_pos admitted

theorem loadImage_of_not_admitted {e : ProgramEntry} (inadmissible : ¬e.Admitted) (s : State) :
    loadImage e s = .refused .imageNotAdmitted := if_neg inadmissible

theorem loadImage_completes_iff (e : ProgramEntry) (s : State) : (∃ t, loadImage e s = .next t) ↔ e.Admitted := by
  constructor
  · rintro ⟨t, completes⟩
    by_contra inadmissible
    rw [loadImage_of_not_admitted inadmissible] at completes
    cases completes
  · exact fun admitted => ⟨_, loadImage_of_admitted admitted s⟩

/-- A run begins with the load into the reset state, so a positive budget cannot save an entry the load refuses. -/
theorem runImage_of_not_admitted {e : ProgramEntry} (inadmissible : ¬e.Admitted) {budget : Nat} (positive : 0 < budget) :
    runImage e budget = .refused .imageNotAdmitted := by
  rw [runImage, if_neg positive.ne', loadImage_of_not_admitted inadmissible]

/-- Settles O50: load and run both turn on admission alone (R164). -/
theorem onlyAdmittedImagesAreLoaded : Obligations.OnlyAdmittedImagesAreLoaded := by
  intro e s
  rw [← admitted_iff]
  exact ⟨loadImage_completes_iff e s, fun inadmissible =>
    ⟨loadImage_of_not_admitted inadmissible s, fun _ positive => runImage_of_not_admitted inadmissible positive⟩⟩

end Sys2Proof.Machine
end

section
/-! SUPPORT. What a step can do (40_cycle.md R80 to R86): it completes, and RAM, the output, `Halted` and `PC` change as the
opcode at `PC` says. The two invariants, and the statements about RAM, output, `Halted` and `PC`, come from these laws. -/

namespace Sys2Proof.Machine

/-! The cases of a step. -/

theorem step_of_running_eq_next {s : State} (running : s.halted = false) :
    step s = .next (nextState (decode (fetch s)) s) := by
  rw [step_of_running running, exec_eq_next_nextState]

/-- A halted core keeps its state (R80, log 3); a running one takes the next state of the instruction at `PC`. -/
theorem step_cases {s t : State} (stepped : step s = .next t) :
    (s.halted = true ∧ t = s) ∨ (s.halted = false ∧ t = nextState (decode (fetch s)) s) := by
  cases halted : s.halted with
  | true =>
    rw [step_of_halted halted] at stepped
    cases stepped
    exact .inl ⟨rfl, rfl⟩
  | false =>
    rw [step_of_running_eq_next halted] at stepped
    cases stepped
    exact .inr ⟨rfl, rfl⟩

theorem step_of_running_inv {s t : State} (running : s.halted = false) (stepped : step s = .next t) :
    t = nextState (decode (fetch s)) s := by
  rw [step_of_running_eq_next running] at stepped
  cases stepped
  rfl

/-- Settles O36: a halted core answers its own state, a running one the next state of its instruction (R140). -/
theorem everyStepCompletes : Obligations.EveryStepCompletes := by
  intro s
  cases halted : s.halted with
  | true => exact ⟨s, step_of_halted halted⟩
  | false => exact ⟨_, step_of_running_eq_next halted⟩

/-! RAM: only STA writes it (R102). -/

theorem nextState_ram_cases (i : Instr) (s : State) :
    (∃ n, i = .sta n ∧ (nextState i s).ram = s.ram.write n s.a) ∨
      (opcodeOf i ≠ .sta ∧ (nextState i s).ram = s.ram) := by
  cases i with
  | sta n => exact .inl ⟨n, rfl, rfl⟩
  | jc n => exact .inr ⟨nofun, branchIf_ram s s.c n⟩
  | jz n => exact .inr ⟨nofun, branchIf_ram s s.z n⟩
  | nop n | lda n | ldb n | add n | adi n | jmp n | jmpv n | out n | movaB n | movbA n | ldi n | sub n | hlt n =>
    exact .inr ⟨nofun, rfl⟩

theorem nextState_ram_of_ne_sta {i : Instr} (other : opcodeOf i ≠ .sta) (s : State) : (nextState i s).ram = s.ram := by
  obtain ⟨n, rfl, -⟩ | ⟨-, same⟩ := nextState_ram_cases i s
  · exact absurd rfl other
  · exact same

/-- Settles O44: a write keeps the canonical form, and RAM changes by one write or not at all. -/
theorem stepKeepsMemoryCanonical : Obligations.StepKeepsMemoryCanonical := by
  intro s t canonical stepped
  obtain ⟨-, rfl⟩ | ⟨-, rfl⟩ := step_cases stepped
  · exact canonical
  · obtain ⟨n, -, written⟩ | ⟨-, same⟩ := nextState_ram_cases (decode (fetch s)) s
    · rw [MemoryCanonical, written]
      exact wf_write canonical n s.a
    · rw [MemoryCanonical, same]
      exact canonical

/-! The output: only OUT emits (R131). -/

/-- The event an instruction adds to the output trace. `outStrobe_of_running` says that it is the step's strobe. -/
def emittedEvent (i : Instr) (s : State) : Option Byte := if opcodeOf i = .out then some s.a else none

theorem outStrobe_of_halted {s : State} (halted : s.halted = true) : outStrobe s = none := by
  rw [outStrobe, if_pos halted]

theorem outStrobe_of_running {s : State} (running : s.halted = false) :
    outStrobe s = emittedEvent (decode (fetch s)) s := by
  rw [outStrobe, if_neg (by simp [running]), emittedEvent]
  cases opcodeOf (decode (fetch s)) <;> rfl

theorem nextState_output (i : Instr) (s : State) :
    (nextState i s).trace = s.trace ++ (emittedEvent i s).toList ∧
      (nextState i s).out = (emittedEvent i s).getD s.out := by
  cases i with
  | out n => exact ⟨rfl, rfl⟩
  | jc n => exact ⟨(branchIf_trace s s.c n).trans (List.append_nil s.trace).symm, branchIf_out s s.c n⟩
  | jz n => exact ⟨(branchIf_trace s s.z n).trans (List.append_nil s.trace).symm, branchIf_out s s.z n⟩
  | nop n | lda n | ldb n | sta n | add n | adi n | jmp n | jmpv n | movaB n | movbA n | ldi n | sub n | hlt n =>
    exact ⟨(List.append_nil s.trace).symm, rfl⟩

/-- Settles O43: the strobe of a running core is the event of its instruction, and a halted core has none (R131, R166). -/
theorem outputTraceGrowsByTheStrobe : Obligations.OutputTraceGrowsByTheStrobe := by
  intro s t stepped
  obtain ⟨halted, rfl⟩ | ⟨running, rfl⟩ := step_cases stepped
  · rw [outStrobe_of_halted halted]
    exact ⟨(List.append_nil _).symm, rfl⟩
  · rw [outStrobe_of_running running]
    exact nextState_output (decode (fetch s)) s

/-- Settles O45: with a strobe the latch and the end of the trace are both its value, without one both are as before. -/
theorem stepKeepsLatchMatchingTrace : Obligations.StepKeepsLatchMatchingTrace := by
  intro s t matching stepped
  obtain ⟨trace_eq, out_eq⟩ := outputTraceGrowsByTheStrobe s t stepped
  rw [LatchMatchesTrace, trace_eq, out_eq]
  cases outStrobe s with
  | none => rw [Option.toList_none, List.append_nil]; exact matching
  | some v => exact List.getLastD_concat.symm

/-! `Halted`: only HLT sets it (R30, R132). -/

theorem nextState_halted_of_ne_hlt {i : Instr} (other : opcodeOf i ≠ .hlt) (s : State) :
    (nextState i s).halted = s.halted := by
  cases i with
  | hlt n => exact absurd rfl other
  | jc n => exact branchIf_halted s s.c n
  | jz n => exact branchIf_halted s s.z n
  | nop n | lda n | ldb n | sta n | add n | adi n | jmp n | jmpv n | out n | movaB n | movbA n | ldi n | sub n => rfl

theorem nextState_halted_of_hlt {i : Instr} (hlt : opcodeOf i = .hlt) (s : State) : (nextState i s).halted = true := by
  cases i with
  | hlt n => rfl
  | _ => cases hlt

theorem fetchesOneOf_singleton (s : State) (op : Opcode) : FetchesOneOf s [op] ↔ opcodeOf (decode (fetch s)) = op :=
  List.mem_singleton

/-- Settles O38: HLT sets `Halted` and every other instruction leaves it at 0 (R30). -/
theorem onlyHltHalts : Obligations.OnlyHltHalts := by
  intro s t running stepped
  rw [fetchesOneOf_singleton, step_of_running_inv running stepped]
  by_cases hlt : opcodeOf (decode (fetch s)) = .hlt
  · exact iff_of_true (nextState_halted_of_hlt hlt s) hlt
  · rw [nextState_halted_of_ne_hlt hlt, running]
    exact iff_of_false nofun hlt

/-! `PC`: only the four jumps set it to anything but `next` (R84, R85). -/

theorem nextState_pc_of_not_jump {i : Instr} (other : opcodeOf i ∉ [Opcode.jmp, .jmpv, .jc, .jz]) (s : State) :
    (nextState i s).pc = s.pc + 1 := by
  cases i with
  | jmp n | jmpv n | jc n | jz n => simp [opcodeOf] at other
  | nop n | lda n | ldb n | sta n | add n | adi n | out n | movaB n | movbA n | ldi n | sub n | hlt n => rfl

theorem pcAdvances_of_pc_eq {s t : State} (pc_eq : t.pc = s.pc + 1) : PcAdvances s t := by
  rw [PcAdvances, pc_eq]
  exact pcAdvances_advance (s := s) rfl

theorem nextState_pc_of_jc_untaken {i : Instr} (jc : opcodeOf i = .jc) {s : State} (untaken : s.c = false) :
    (nextState i s).pc = s.pc + 1 := by
  cases i with
  | jc n => rw [show nextState (.jc n) s = branchIf s s.c n from rfl, untaken]; rfl
  | _ => cases jc

theorem nextState_pc_of_jz_untaken {i : Instr} (jz : opcodeOf i = .jz) {s : State} (untaken : s.z = false) :
    (nextState i s).pc = s.pc + 1 := by
  cases i with
  | jz n => rw [show nextState (.jz n) s = branchIf s s.z n from rfl, untaken]; rfl
  | _ => cases jz

/-- Settles O39: all but the four jumps, and JC and JZ untaken, do `PC <- PC + 1` on four bits (R84, R85). -/
theorem pcAdvancesUnlessAJumpIsTaken : Obligations.PcAdvancesUnlessAJumpIsTaken := by
  intro s t running stepped
  rw [step_of_running_inv running stepped, fetchesOneOf_singleton, fetchesOneOf_singleton]
  refine ⟨fun other => pcAdvances_of_pc_eq (nextState_pc_of_not_jump other s), fun other last => ?_,
    fun jc untaken => pcAdvances_of_pc_eq (nextState_pc_of_jc_untaken jc untaken),
    fun jz untaken => pcAdvances_of_pc_eq (nextState_pc_of_jz_untaken jz untaken)⟩
  rw [nextState_pc_of_not_jump other s, last]
  rfl

end Sys2Proof.Machine
end

section
/-! SUPPORT. The memory signals of a step (70_reset_and_hazards.md R166): one fetch and at most one data access, and RAM changes
by the write alone; with it, the order of a store and the next fetch (20_memory.md R54, R55). -/

namespace Sys2Proof.Machine

/-! The data access of an instruction (R42). -/

theorem isSome_dataAccess_iff (i : Instr) (s : State) :
    (dataAccess i s).isSome ↔ opcodeOf i ∈ [Opcode.lda, .ldb, .sta, .add, .sub, .jmpv] := by
  cases i with
  | lda n | ldb n | sta n | add n | sub n | jmpv n => exact iff_of_true rfl (by simp [opcodeOf])
  | nop n | adi n | jmp n | jc n | jz n | out n | movaB n | movbA n | ldi n | hlt n =>
    exact iff_of_false nofun (by simp [opcodeOf])

/-- The data access is at the operand address; it is a write of `A` for STA and a read of the byte there otherwise. -/
theorem dataAccess_spec {i : Instr} {s : State} {x : BusAccess} (driven : dataAccess i s = some x) :
    x.addr = operandOf i ∧ (x.we = true ↔ opcodeOf i = .sta) ∧
      (x = .read x.addr (memRead s x.addr) ∨ x = .write x.addr s.a) := by
  cases i with
  | sta n =>
    cases driven
    exact ⟨rfl, iff_of_true rfl rfl, .inr rfl⟩
  | lda n | ldb n | add n | sub n | jmpv n =>
    cases driven
    exact ⟨rfl, iff_of_false nofun nofun, .inl rfl⟩
  | nop n | adi n | jmp n | jc n | jz n | out n | movaB n | movbA n | ldi n | hlt n => cases driven

theorem dataAccess_eq_write_iff (i : Instr) (s : State) (addr : Nibble) (v : Byte) :
    dataAccess i s = some (.write addr v) ↔ i = .sta addr ∧ v = s.a := by
  constructor
  · intro driven
    cases i with
    | sta n =>
      cases driven
      exact ⟨rfl, rfl⟩
    | _ => cases driven
  · rintro ⟨rfl, rfl⟩
    rfl

/-! The accesses of a step. -/

theorem busAccesses_of_halted {s : State} (halted : s.halted = true) : busAccesses s = [] := by
  rw [busAccesses, if_pos halted]

theorem busAccesses_of_running {s : State} (running : s.halted = false) :
    busAccesses s = .read s.pc (fetch s) :: (dataAccess (decode (fetch s)) s).toList := by
  rw [busAccesses, if_neg (by simp [running])]

theorem write_mem_busAccesses_iff {s : State} (running : s.halted = false) (addr : Nibble) (v : Byte) :
    BusAccess.write addr v ∈ busAccesses s ↔ decode (fetch s) = .sta addr ∧ v = s.a := by
  rw [busAccesses_of_running running, ← dataAccess_eq_write_iff]
  simp

/-- Settles O41: the list is the fetch and the data access of the fetched instruction (R42, R51). -/
theorem stepDrivesOneFetchAndAtMostOneDataAccess : Obligations.StepDrivesOneFetchAndAtMostOneDataAccess := by
  intro s running
  refine ⟨_, busAccesses_of_running running, Option.length_toList_le, ?present, fun x driven => ?data⟩
  case present =>
    rw [FetchesOneOf, ← isSome_dataAccess_iff _ s, Option.isSome_iff_ne_none, ne_eq, Option.toList_eq_nil_iff]
  case data =>
    rw [fetchesOneOf_singleton]
    exact dataAccess_spec (Option.mem_toList.mp driven)

/-- Settles O42: the one write that can be driven is STA's, of `A` at its operand, and it is what STA does to RAM. -/
theorem ramChangesExactlyByTheWritesDriven : Obligations.RamChangesExactlyByTheWritesDriven := by
  intro s t stepped addr
  obtain ⟨halted, rfl⟩ | ⟨running, rfl⟩ := step_cases stepped
  · rw [busAccesses_of_halted halted]
    exact ⟨nofun, fun _ => rfl⟩
  simp only [write_mem_busAccesses_iff running]
  obtain ⟨n, sta, written⟩ | ⟨other, same⟩ := nextState_ram_cases (decode (fetch s)) s
  · rw [memRead, written, sta]
    constructor
    · rintro v ⟨⟨⟩, rfl⟩
      exact read_write_same s.ram _ s.a
    · intro none_driven
      have elsewhere : addr ≠ n := fun same_addr => none_driven s.a ⟨by rw [same_addr], rfl⟩
      exact read_write_other s.ram elsewhere s.a
  · rw [memRead, same]
    exact ⟨fun v ⟨sta, _⟩ => absurd (congrArg opcodeOf sta) other, fun _ => rfl⟩

/-- Settles O40: the store is done when the step ends, so the next fetch of its address reads `A` (R54, R55). -/
theorem storeIsSeenByTheNextFetch : Obligations.StoreIsSeenByTheNextFetch := by
  intro n s running sta
  have stepped : step s = .next (advance (memWrite s n s.a)) := by
    rw [step_of_running running, fetch, sta, exec_sta]
  have stored : memRead (advance (memWrite s n s.a)) n = s.a := memRead_memWrite_same s n s.a
  obtain ⟨others_kept, pc_advances, -⟩ := advance_memWrite_frame s n s.a
  refine ⟨_, stepped, stored, others_kept, pc_advances, fun next_is_n => ?_⟩
  rw [step_of_running (s := advance (memWrite s n s.a)) running, fetch, next_is_n, stored]

end Sys2Proof.Machine
end

section
/-! SUPPORT. The access table (10_state.md R34): the readers and the writers of `A` and of `Out` (R21, R29), `PC` as no data (R24),
and the "reads" and "writes" columns over every instruction. -/

namespace Sys2Proof.Machine

/-! The accumulator (R21). ADD, ADI and SUB both read and write it, so `StatePart.Roles`, whose writers forget the old value,
does not describe it. -/

theorem nextState_a_of_notMem {i : Instr} (other : opcodeOf i ∉ [Opcode.lda, .add, .adi, .movaB, .ldi, .sub]) (s : State) :
    (nextState i s).a = s.a := by
  cases i with
  | lda n | add n | adi n | movaB n | ldi n | sub n => simp [opcodeOf] at other
  | jc n => exact branchIf_a s s.c n
  | jz n => exact branchIf_a s s.z n
  | nop n | ldb n | sta n | jmp n | jmpv n | out n | movbA n | hlt n => rfl

theorem branchIf_setA (s : State) (v : Byte) (cond : Bool) (target : Nibble) :
    branchIf (setA s v) cond target = setA (branchIf s cond target) v := by
  cases cond <;> rfl

/-- LDA, MOVA_B and LDI overwrite the other value; the other instructions that do not read `A` carry it through. -/
theorem nextState_setA_of_notMem {i : Instr} (other : opcodeOf i ∉ [Opcode.sta, .add, .adi, .out, .movbA, .sub])
    (s : State) (v : Byte) :
    nextState i (setA s v) =
      setA (nextState i s) (if opcodeOf i ∈ [Opcode.lda, .movaB, .ldi] then (nextState i s).a else v) := by
  cases i with
  | sta n | add n | adi n | out n | movbA n | sub n => simp [opcodeOf] at other
  | lda n | movaB n | ldi n => rfl
  | jc n => exact branchIf_setA s v s.c n
  | jz n => exact branchIf_setA s v s.z n
  | nop n | ldb n | jmp n | jmpv n | hlt n => rfl

/-- Settles O27: the instructions outside the two lists, case by case (R21). -/
theorem accumulatorReadersAndWriters : Obligations.AccumulatorReadersAndWriters :=
  ⟨rfl, fun i s v => ⟨nextState i s, exec_eq_next_nextState i s, fun other => nextState_a_of_notMem other s,
    fun other => (exec_eq_next_nextState i (setA s v)).trans (congrArg _ (nextState_setA_of_notMem other s v))⟩⟩

/-! The output latch (R29). -/

/-- `Out`. -/
def outputLatch : StatePart Byte where
  get s := s.out
  put s v := { s with out := v }
  get_put _ _ := rfl
  put_get _ := rfl

theorem branchIf_outputLatch_put (s : State) (v : Byte) (cond : Bool) (target : Nibble) :
    branchIf (outputLatch.put s v) cond target = outputLatch.put (branchIf s cond target) v := by
  cases cond <;> rfl

theorem outputLatch_roles : outputLatch.Roles [.out] [] where
  overwrites i s v hw := by
    cases i with
    | out n => rfl
    | _ => simp [opcodeOf] at hw
  carries i s v hw _ := by
    cases i with
    | out n => simp [opcodeOf] at hw
    | jc n => exact branchIf_outputLatch_put s v s.c n
    | jz n => exact branchIf_outputLatch_put s v s.z n
    | nop n | lda n | ldb n | sta n | add n | adi n | jmp n | jmpv n | movaB n | movbA n | ldi n | sub n | hlt n => rfl

/-- Settles O31, by the roles of the instructions for `Out`, which nothing reads, and the event of OUT (R29, R131). -/
theorem outputLatchIsWrittenByOutAndReadByNone : Obligations.OutputLatchIsWrittenByOutAndReadByNone := by
  intro i s v
  obtain ⟨t, completes, frame, same⟩ := outputLatch_roles.exec_put i s v
  simp only [List.mem_singleton] at frame same
  refine ⟨t, completes, fun out => ?_, frame, same List.not_mem_nil⟩
  rw [exec_eq_next_nextState] at completes
  cases completes
  rw [(nextState_output i s).2, emittedEvent, if_pos out, Option.getD_some]

/-! `PC` (R24): another `PC` gives another next `PC` and nothing else. -/

theorem branchIf_jumpTo (s : State) (v : Nibble) (cond : Bool) (target : Nibble) :
    branchIf (jumpTo s v) cond target = jumpTo (branchIf s cond target) (branchIf (jumpTo s v) cond target).pc := by
  cases cond <;> rfl

theorem nextState_jumpTo (i : Instr) (s : State) (v : Nibble) :
    nextState i (jumpTo s v) = jumpTo (nextState i s) (nextState i (jumpTo s v)).pc := by
  cases i with
  | jc n => exact branchIf_jumpTo s v s.c n
  | jz n => exact branchIf_jumpTo s v s.z n
  | nop n | lda n | ldb n | sta n | add n | adi n | jmp n | jmpv n | out n | movaB n | movbA n | ldi n | sub n | hlt n => rfl

/-- Settles O32: no instruction but through the next `PC` shows which `PC` it ran at (R24). -/
theorem pcIsNeverReadAsData : Obligations.PcIsNeverReadAsData := fun i s v =>
  ⟨_, _, exec_eq_next_nextState i s, exec_eq_next_nextState i (jumpTo s v), nextState_jumpTo i s v⟩

/-! The "writes" column of R34, read by item. -/

theorem mem_allOpcodes (op : Opcode) : op ∈ allOpcodes := by
  cases op <;> decide

/-- The opcodes whose row lists the item as written. -/
def writersOf (x : Item) : List Opcode := allOpcodes.filter fun op => x ∈ writesOf op

theorem notMem_writersOf {x : Item} {op : Opcode} (unlisted : x ∉ writesOf op) : op ∉ writersOf x := by
  simpa [writersOf, mem_allOpcodes] using unlisted

theorem emittedEvent_of_ne_out {i : Instr} (other : opcodeOf i ≠ .out) (s : State) : emittedEvent i s = none :=
  if_neg other

/-- Each item has its own frame law; the lists in those laws are the columns `writersOf` reads off. -/
theorem agreeWholly_nextState {i : Instr} {x : Item} (unlisted : x ∉ writesOf (opcodeOf i)) (s : State) :
    AgreeWholly s (nextState i s) x := by
  have other : opcodeOf i ∉ writersOf x := notMem_writersOf unlisted
  cases x with
  | a => exact (nextState_a_of_notMem other s).symm
  | b => exact (auxiliary_roles.get_nextState other s).symm
  | c => exact (carryFlag_roles.get_nextState other s).symm
  | z => exact (zeroFlag_roles.get_nextState other s).symm
  | m =>
    intro addr
    rw [memRead, memRead, nextState_ram_of_ne_sta (List.ne_of_not_mem_cons other) s]
  | out => exact (outputLatch_roles.get_nextState other s).symm
  | trace =>
    rw [AgreeWholly, (nextState_output i s).1, emittedEvent_of_ne_out (List.ne_of_not_mem_cons other)]
    exact (List.append_nil s.trace).symm
  | halted => exact (nextState_halted_of_ne_hlt (List.ne_of_not_mem_cons other) s).symm

theorem sameMemoryBut_nextState (i : Instr) (s : State) : SameMemoryBut (operandOf i) s (nextState i s) := by
  intro addr elsewhere
  obtain ⟨n, rfl, written⟩ | ⟨-, same⟩ := nextState_ram_cases i s
  · rw [memRead, written]
    exact read_write_other s.ram elsewhere s.a
  · rw [memRead, same]
    rfl

/-- Settles O33: the frame law of each item, and RAM's at every byte but the addressed one. -/
theorem nothingOutsideTheWriteTableChanges : Obligations.NothingOutsideTheWriteTableChanges := by
  intro i s t completes
  rw [exec_eq_next_nextState] at completes
  cases completes
  exact ⟨fun x unlisted => agreeWholly_nextState unlisted s, sameMemoryBut_nextState i s⟩

/-! The "reads" column of R34: two states that agree on what an instruction reads. -/

theorem nextState_pc_congr {i : Instr} {s s' : State} (same_pc : s.pc = s'.pc)
    (agree : ∀ x ∈ readsOf (opcodeOf i), AgreeOn (operandOf i) s s' x) : (nextState i s).pc = (nextState i s').pc := by
  cases i with
  | jmp n => rfl
  | jmpv n => exact congrArg indirectTarget (agree .m (.head _))
  | jc n =>
    have same_c : s.c = s'.c := agree .c (.head _)
    calc (branchIf s s.c n).pc
      _ = (branchIf s' s'.c n).pc := by rw [branchIf_pc, branchIf_pc, same_c, same_pc]
  | jz n =>
    have same_z : s.z = s'.z := agree .z (.head _)
    calc (branchIf s s.z n).pc
      _ = (branchIf s' s'.z n).pc := by rw [branchIf_pc, branchIf_pc, same_z, same_pc]
  | nop n | lda n | ldb n | sta n | add n | adi n | out n | movaB n | movbA n | ldi n | sub n | hlt n =>
    exact congrArg (· + 1) same_pc

theorem agreeOn_advance_addToA (n : Nibble) {s s' : State} {m m' : Byte} (same_a : s.a = s'.a) (same_m : m = m')
    {x : Item} (listed : x ∈ [Item.a, .c, .z]) : AgreeOn n (advance (addToA s m)) (advance (addToA s' m')) x := by
  simp only [List.mem_cons, List.not_mem_nil, or_false] at listed
  rcases listed with rfl | rfl | rfl <;> simp [AgreeOn, same_a, same_m]

theorem agreeOn_advance_subFromA (n : Nibble) {s s' : State} {m m' : Byte} (same_a : s.a = s'.a) (same_m : m = m')
    {x : Item} (listed : x ∈ [Item.a, .c, .z]) : AgreeOn n (advance (subFromA s m)) (advance (subFromA s' m')) x := by
  simp only [List.mem_cons, List.not_mem_nil, or_false] at listed
  rcases listed with rfl | rfl | rfl <;> simp [AgreeOn, same_a, same_m]

theorem agreeOn_nextState {i : Instr} {s s' : State} (agree : ∀ x ∈ readsOf (opcodeOf i), AgreeOn (operandOf i) s s' x)
    {x : Item} (listed : x ∈ writesOf (opcodeOf i)) (not_trace : x ≠ .trace) :
    AgreeOn (operandOf i) (nextState i s) (nextState i s') x := by
  cases i with
  | nop n | jmp n | jmpv n | jc n | jz n => cases listed
  | lda n | ldb n =>
    obtain rfl := List.mem_singleton.mp listed
    exact agree .m (.head _)
  | sta n =>
    obtain rfl := List.mem_singleton.mp listed
    calc memRead (memWrite s n s.a) n
      _ = s.a := memRead_memWrite_same s n s.a
      _ = s'.a := agree .a (.head _)
      _ = memRead (memWrite s' n s'.a) n := (memRead_memWrite_same s' n s'.a).symm
  | add n => exact agreeOn_advance_addToA n (agree .a (.head _)) (agree .m (.tail _ (.head _))) listed
  | adi n => exact agreeOn_advance_addToA n (agree .a (.head _)) rfl listed
  | sub n => exact agreeOn_advance_subFromA n (agree .a (.head _)) (agree .m (.tail _ (.head _))) listed
  | out n =>
    obtain rfl : x = .out := by simpa [writesOf, opcodeOf, not_trace] using listed
    exact agree .a (.head _)
  | movaB n =>
    obtain rfl := List.mem_singleton.mp listed
    exact agree .b (.head _)
  | movbA n =>
    obtain rfl := List.mem_singleton.mp listed
    exact agree .a (.head _)
  | ldi n | hlt n =>
    obtain rfl := List.mem_singleton.mp listed
    rfl

theorem emittedEvent_congr {i : Instr} {s s' : State}
    (agree : ∀ x ∈ readsOf (opcodeOf i), AgreeOn (operandOf i) s s' x) : emittedEvent i s = emittedEvent i s' := by
  cases i with
  | out n => exact congrArg some (agree .a (.head _))
  | _ => rfl

/-- Settles O34: the new `PC`, the written items and the event are each a function of what is read. -/
theorem resultsDependOnlyOnTheReadTable : Obligations.ResultsDependOnlyOnTheReadTable := by
  intro i s s' t t' same_pc agree completes completes'
  rw [exec_eq_next_nextState] at completes completes'
  cases completes
  cases completes'
  refine ⟨nextState_pc_congr same_pc agree, fun x listed not_trace => agreeOn_nextState agree listed not_trace,
    (emittedEvent i s).toList, (nextState_output i s).1, ?_⟩
  rw [emittedEvent_congr agree]
  exact (nextState_output i s').1

end Sys2Proof.Machine
end

section
/-! SUPPORT. The laws of addition and subtraction (42_arithmetic.md section 2): which flag pairs can follow, and SUB as an addition. -/

namespace Sys2Proof.Machine

/-- Both flags after an addition, from the exact sum, which is at most 510. -/
theorem addition_flagPairs (a m : Byte) :
    (carryOut a m = true ∧ zeroOf (wrappedSum a m) = true ↔ a.toNat + m.toNat = 256) ∧
      (carryOut a m = false ∧ zeroOf (wrappedSum a m) = true ↔ a.toNat = 0 ∧ m.toNat = 0) := by
  have ha := a.isLt
  have hm := m.isLt
  rw [← Bool.not_eq_true (carryOut a m), carryOut_iff, zeroOf_wrappedSum_iff]
  omega

theorem toNat_eq_zero_iff {w : Nat} (x : BitVec w) : x.toNat = 0 ↔ x = 0 :=
  BitVec.toNat_eq_nat.trans (by simp)

/-- Settles O23: the flag pairs of the exact sum, with the immediate taken at its own number. -/
theorem flagPairsAfterAddition : Obligations.FlagPairsAfterAddition := by
  intro n s
  simp only [← toNat_eq_zero_iff]
  rw [← immediateByte_toNat n]
  exact ⟨⟨_, exec_add n s, addition_flagPairs s.a (memRead s n)⟩, ⟨_, exec_adi n s, addition_flagPairs s.a (immediateByte n)⟩⟩

/-- A difference of two bytes is 0 mod 256 only if it is 0. -/
theorem zeroOf_wrappedDifference_iff (a m : Byte) : zeroOf (wrappedDifference a m) = true ↔ a = m := by
  rw [zeroOf_iff_eq_zero, wrappedDifference_eq_sub]
  exact sub_eq_zero

theorem noBorrow_of_zeroOf_wrappedDifference {a m : Byte} (zero : zeroOf (wrappedDifference a m) = true) :
    noBorrow a m = true := by
  rw [noBorrow_iff, (zeroOf_wrappedDifference_iff a m).mp zero]

/-- Settles O24: equal operands need no borrow. -/
theorem zeroAfterSubtractionImpliesNoBorrow : Obligations.ZeroAfterSubtractionImpliesNoBorrow := fun n s =>
  ⟨_, exec_sub n s, zeroOf_wrappedDifference_iff s.a (memRead s n), noBorrow_of_zeroOf_wrappedDifference,
    fun ⟨borrow, zero⟩ => Bool.false_ne_true (borrow.symm.trans (noBorrow_of_zeroOf_wrappedDifference zero))⟩

theorem wrappedDifference_toNat_eq_complement_sum (a m : Byte) :
    (wrappedDifference a m).toNat = (a.toNat + (255 - m.toNat) + 1) % 256 := by
  have hm := m.isLt
  rw [wrappedDifference_toNat, show a.toNat + 256 - m.toNat = a.toNat + (255 - m.toNat) + 1 by omega]

theorem noBorrow_iff_complement_carry (a m : Byte) : noBorrow a m = true ↔ a.toNat + (255 - m.toNat) + 1 > 255 := by
  have hm := m.isLt
  rw [noBorrow_iff]
  omega

/-- Settles O25: `A - m + 256` is `A + (255 - m) + 1`, whose carry says that no 256 had to be borrowed. -/
theorem subtractionIsTheComplementAddition : Obligations.SubtractionIsTheComplementAddition := fun n s =>
  ⟨_, exec_sub n s, wrappedDifference_toNat_eq_complement_sum s.a (memRead s n),
    noBorrow_iff_complement_carry s.a (memRead s n)⟩

end Sys2Proof.Machine
end

section
/-! SUPPORT. The jump through memory (43_control.md R121), OUT and HLT (44_system.md R131, R132), the sample bytes of the test
vectors, and a table word placed at `PC`. -/

namespace Sys2Proof.Machine

/-- Settles O2, by evaluation of the decoder on the seventeen bytes. -/
theorem sampleBytesDecodeAsListed : Obligations.SampleBytesDecodeAsListed := by
  unfold Obligations.SampleBytesDecodeAsListed
  decide

/-- Settles O14: JMPV is `PC <- RAM[n] mod 16` and nothing else (R121, D4). -/
theorem jmpvJumpsThroughTheLowNibble : Obligations.JmpvJumpsThroughTheLowNibble := fun n s =>
  ⟨encodedAs_instrOf .jmpv n, _, exec_jmpv n s, indirectTarget_toNat (memRead s n), jumpTo_frame s _⟩

/-- Settles O18: OUT is `Out <- A` with one event, then `PC <- next` (R131, D9). -/
theorem outLatchesAndEmitsAccumulator : Obligations.OutLatchesAndEmitsAccumulator := fun n s =>
  ⟨encodedAs_instrOf .out n, _, exec_out n s, emitOutput_out s s.a, emitOutput_trace s s.a,
    pcAdvances_advance (emitOutput_pc s s.a), emitOutput_a s s.a, emitOutput_b s s.a,
    ⟨emitOutput_c s s.a, emitOutput_z s s.a⟩, emitOutput_halted s s.a, memRead_emitOutput s s.a⟩

/-- Settles O19: HLT is `Halted <- 1`, then `PC <- next` (R132, D7). -/
theorem hltSetsHaltedAndKeepsTheRest : Obligations.HltSetsHaltedAndKeepsTheRest := fun n s =>
  ⟨encodedAs_instrOf .hlt n, _, exec_hlt n s, setHalted_halted s, pcAdvances_advance (setHalted_pc s), setHalted_a s,
    setHalted_b s, ⟨setHalted_c s, setHalted_z s⟩, ⟨setHalted_out s, setHalted_trace s⟩, memRead_setHalted s⟩

/-- Settles O26: JMPV reads the byte STA has just stored (R72). -/
theorem storeThenIndirectJumpGoesToAccumulator : Obligations.StoreThenIndirectJumpGoesToAccumulator := by
  intro n s
  refine ⟨_, _, exec_sta n s, exec_jmpv n _, ?_, memWrite_a s n s.a⟩
  rw [jumpTo_pc, indirectTarget_toNat, memRead_advance, memRead_memWrite_same]

/-- Settles O57: the placed byte is the one at `PC`, and `Halted` is 0, so the step executes it (log 2). -/
theorem placedWordRunsNext : Obligations.PlacedWordRunsNext := by
  intro s nbits w
  have placed : memRead (s.withFetchWord nbits w) s.pc = tableByte nbits w := memRead_memWrite_same s s.pc (tableByte nbits w)
  refine ⟨?runs, placed, fun _ elsewhere => memRead_memWrite_other s elsewhere (tableByte nbits w)⟩
  case runs =>
    calc step (s.withFetchWord nbits w)
      _ = exec (decode (memRead (s.withFetchWord nbits w) s.pc)) (s.withFetchWord nbits w) := step_of_running rfl
      _ = exec (decode (tableByte nbits w)) (s.withFetchWord nbits w) := by rw [placed]

end Sys2Proof.Machine
end

section
/-! SUPPORT. A canonical memory is its 16 reads (log 1), and what the image load puts there (70_reset_and_hazards.md R163). -/

namespace Sys2Proof.Machine

/-! The cells of a memory and what their addresses read. -/

theorem lookup_of_forall_ne {k : Nat} {m : List Host.Cell} (absent : ∀ p ∈ m, p.1 ≠ k) :
    Memory.lookup k m = Memory.unlisted := by
  induction m with
  | nil => rfl
  | cons p rest ih =>
    rw [Memory.lookup, if_neg (absent p List.mem_cons_self)]
    exact ih fun q hq => absent q (List.mem_cons_of_mem p hq)

theorem lookup_of_mem {m : List Host.Cell} (rising : m.Pairwise (fun p q => p.1 < q.1)) {p : Host.Cell} (listed : p ∈ m) :
    Memory.lookup p.1 m = p.2 := by
  induction m with
  | nil => cases listed
  | cons q rest ih =>
    obtain ⟨q_below, rest_rising⟩ := List.pairwise_cons.mp rising
    rcases List.mem_cons.mp listed with rfl | in_rest
    · rw [Memory.lookup, if_pos rfl]
    · rw [Memory.lookup, if_neg (q_below p in_rest).ne]
      exact ih rest_rising in_rest

theorem mem_of_lookup_ne {k : Nat} {m : List Host.Cell} (listed : Memory.lookup k m ≠ Memory.unlisted) :
    (k, Memory.lookup k m) ∈ m := by
  induction m with
  | nil => exact absurd rfl listed
  | cons p rest ih =>
    by_cases here : p.1 = k
    · rw [Memory.lookup, if_pos here, ← here]
      exact List.mem_cons_self
    · rw [Memory.lookup, if_neg here] at listed ⊢
      exact List.mem_cons_of_mem p (ih listed)

/-- In the canonical form the cells are the addresses that read other than 0x00, each with what it reads. -/
theorem mem_iff_lookup {m : Memory} (canonical : m.wf) (p : Host.Cell) :
    p ∈ m ↔ Memory.lookup p.1 m = p.2 ∧ p.2 ≠ Memory.unlisted := by
  obtain ⟨rising, cells⟩ := canonical
  constructor
  · exact fun listed => ⟨lookup_of_mem rising listed, (cells p listed).2⟩
  · rintro ⟨value, not_unlisted⟩
    have listed := mem_of_lookup_ne (value ▸ not_unlisted)
    rwa [value] at listed

theorem lookup_eq_of_read_eq {m m' : Memory} (canonical : m.wf) (canonical' : m'.wf)
    (same : ∀ addr : Nibble, m.read addr = m'.read addr) (k : Nat) : Memory.lookup k m = Memory.lookup k m' := by
  by_cases inside : k < 16
  · have at_k := same (BitVec.ofNat 4 k)
    rwa [Memory.read, Memory.read, BitVec.toNat_ofNat, Nat.mod_eq_of_lt inside] at at_k
  · have outside {l : Memory} (wf : l.wf) : Memory.lookup k l = Memory.unlisted :=
      lookup_of_forall_ne fun p hp => ((wf.2 p hp).1.trans_le (Nat.le_of_not_lt inside)).ne
    rw [outside canonical, outside canonical']

/-- Settles O47: the two lists have the same cells, and both rise. -/
theorem canonicalMemoryIsDeterminedByItsReads : Obligations.CanonicalMemoryIsDeterminedByItsReads := by
  intro m m' canonical canonical' same
  have same_cells (p : Host.Cell) : p ∈ m ↔ p ∈ m' := by
    rw [mem_iff_lookup canonical, mem_iff_lookup canonical', lookup_eq_of_read_eq canonical canonical' same]
  have asymm : Std.Asymm fun p q : Host.Cell => p.1 < q.1 := ⟨fun _ _ => Nat.lt_asymm⟩
  obtain ⟨rising, -⟩ := canonical
  obtain ⟨rising', -⟩ := canonical'
  exact rising.eq_of_mem_iff rising' same_cells

/-! The image load. -/

theorem lookup_imageRam (bytes : List Byte) (k j : Nat) :
    Memory.lookup (k + j) (imageRam k bytes) = bytes.getD j 0x00 := by
  induction bytes generalizing k j with
  | nil => rfl
  | cons v rest ih =>
    have first_absent : Memory.lookup k (imageRam (k + 1) rest) = Memory.unlisted :=
      lookup_of_forall_ne fun p hp => (Nat.lt_of_succ_le (mem_imageRam_bounds hp).1).ne'
    have rest_at (j : Nat) : Memory.lookup (k + (j + 1)) (imageRam (k + 1) rest) = rest.getD j 0x00 := by
      rw [← ih (k + 1) j, Nat.add_right_comm, Nat.add_assoc]
    by_cases zero : v = Memory.unlisted
    · rw [imageRam, if_pos zero]
      cases j with
      | zero => exact first_absent.trans zero.symm
      | succ j => exact rest_at j
    · rw [imageRam, if_neg zero]
      cases j with
      | zero => rw [Memory.lookup, if_pos (Nat.add_zero k).symm, List.getD_cons_zero]
      | succ j =>
        rw [Memory.lookup, if_neg (Nat.lt_add_of_pos_right j.succ_pos).ne]
        exact rest_at j

/-- The bytes of the image from offset 0, and 0x00 above it (R163, D10). -/
theorem read_imageRam (bytes : List Byte) (addr : Nibble) :
    Memory.read (imageRam 0 bytes) addr = bytes.getD addr.toNat 0x00 := by
  rw [Memory.read, ← lookup_imageRam bytes 0 addr.toNat, Nat.zero_add]

/-- Settles O49: the load writes RAM, with the image's own canonical list, and no register (R163). -/
theorem imageLoadFillsRamFromOffsetZero : Obligations.ImageLoadFillsRamFromOffsetZero := by
  intro e s admitted
  have ⟨_, _, fits⟩ := admitted
  exact ⟨_, loadImage_of_admitted admitted s, read_imageRam e.bytes, wf_imageRam fits, rfl⟩

end Sys2Proof.Machine
end

section
/-! SUPPORT. Reset, the host's moves and the block around the core (70_reset_and_hazards.md R160 to R167): what each move does,
which of them a block accepts, and what holds through all of them. -/

namespace Sys2Proof.Machine

/-! Reset and the registers (R160). -/

theorem registersReset_applyReset (s : State) : RegistersReset (applyReset s) := ⟨rfl, rfl, rfl, rfl, rfl, rfl, rfl⟩

theorem registersReset_withRam {s : State} (reset : RegistersReset s) (m : Memory) : RegistersReset { s with ram := m } :=
  reset

theorem loadImage_inv {e : ProgramEntry} {s t : State} (loads : loadImage e s = .next t) :
    e.Admitted ∧ t = { s with ram := imageRam 0 e.bytes } := by
  have admitted : e.Admitted := (loadImage_completes_iff e s).mp ⟨t, loads⟩
  rw [loadImage_of_admitted admitted] at loads
  cases loads
  exact ⟨admitted, rfl⟩

/-- Settles O46: at reset no cell is listed and no event is in the trace. -/
theorem resetMeetsTheInvariants : Obligations.ResetMeetsTheInvariants := ⟨wf_nil, rfl⟩

/-! The host's moves (R165, R167). -/

theorem hostMove_assertReset (b : Block) :
    hostMove .assertReset b = .next { resetLine := true, loaded := false, core := applyReset b.core } := rfl

theorem hostMove_loadImage_of_running {b : Block} (running : b.resetLine = false) (e : ProgramEntry) :
    hostMove (.loadImage e) b = .refused .loadOutsideReset := by
  rw [hostMove, if_neg (by simp [running])]

theorem hostMove_loadImage_of_held {b : Block} (held : b.resetLine = true) {e : ProgramEntry} (admitted : e.Admitted) :
    hostMove (.loadImage e) b =
      .next { b with loaded := true, core := { b.core with ram := imageRam 0 e.bytes } } := by
  rw [hostMove, if_pos held, loadImage_of_admitted admitted]

theorem hostMove_releaseReset_of_loaded {b : Block} (loaded : b.loaded = true) :
    hostMove .releaseReset b = .next { b with resetLine := false } := if_pos loaded

/-- A completed move resets the core, or writes its RAM while the reset line is 1, or clears the reset line. -/
theorem hostMove_cases {m : HostMove} {b b' : Block} (moves : hostMove m b = .next b') :
    (m = .assertReset ∧ b' = { resetLine := true, loaded := false, core := applyReset b.core }) ∨
      (b.resetLine = true ∧ ∃ ram, b' = { b with loaded := true, core := { b.core with ram := ram } }) ∨
      b' = { b with resetLine := false } := by
  cases m with
  | assertReset =>
    cases moves
    exact .inl ⟨rfl, rfl⟩
  | loadImage e =>
    rcases Bool.eq_false_or_eq_true b.resetLine with held | running
    · by_cases admitted : e.Admitted
      · rw [hostMove_loadImage_of_held held admitted] at moves
        cases moves
        exact .inr (.inl ⟨held, _, rfl⟩)
      · rw [hostMove, if_pos held, loadImage_of_not_admitted admitted] at moves
        cases moves
    · rw [hostMove_loadImage_of_running running] at moves
      cases moves
  | releaseReset =>
    rw [hostMove] at moves
    split at moves
    · cases moves
      exact .inr (.inr rfl)
    · cases moves

/-- While the reset line is 1 a step of the block leaves it as it is; while it is 0 the core steps. -/
theorem blockStep_cases {b b' : Block} (stepped : blockStep b = .next b') :
    (b.resetLine = true ∧ b' = b) ∨
      (b.resetLine = false ∧ ∃ t, step b.core = .next t ∧ b' = { b with core := t }) := by
  rw [blockStep] at stepped
  rcases Bool.eq_false_or_eq_true b.resetLine with held | released
  · rw [if_pos held] at stepped
    cases stepped
    exact .inl ⟨held, rfl⟩
  · obtain ⟨t, core_steps⟩ := everyStepCompletes b.core
    rw [if_neg (by simp [released]), core_steps] at stepped
    cases stepped
    exact .inr ⟨released, t, core_steps, rfl⟩

/-! What holds through the moves. -/

theorem halted_blockStep {b b' : Block} (halted : b.core.halted = true) (stepped : blockStep b = .next b') :
    b'.core.halted = true := by
  obtain ⟨-, rfl⟩ | ⟨-, t, core_steps, rfl⟩ := blockStep_cases stepped
  · exact halted
  · rw [step_of_halted halted] at core_steps
    cases core_steps
    exact halted

theorem halted_hostMove {m : HostMove} {b b' : Block} (halted : b.core.halted = true) (moves : hostMove m b = .next b') :
    m = .assertReset ∨ b'.core.halted = true := by
  obtain ⟨reset, -⟩ | ⟨-, ram, rfl⟩ | rfl := hostMove_cases moves
  · exact .inl reset
  · exact .inr halted
  · exact .inr halted

/-- Settles O48: reset writes every register, the load writes none of them, and a halted core is left only by reset (R153, R160). -/
theorem resetPutsEveryRegisterInItsResetValue : Obligations.ResetPutsEveryRegisterInItsResetValue := by
  refine ⟨registersReset_applyReset, registersReset_applyReset State.reset,
    fun b => ⟨_, hostMove_assertReset b, rfl, registersReset_applyReset b.core⟩, ?load,
    fun _ _ => halted_blockStep, fun _ _ _ => halted_hostMove⟩
  case load =>
    intro e s t loads reset
    obtain ⟨-, rfl⟩ := loadImage_inv loads
    exact registersReset_withRam reset _

/-- Settles O51: reset gives the registers and the empty trace, the load the bytes, and the release starts the core at address 0,
where the image's first byte is (R165, R167). -/
theorem bootRunsTheImageFromAddressZero : Obligations.BootRunsTheImageFromAddressZero := by
  intro b e admitted
  refine ⟨_, _, _, hostMove_assertReset b, hostMove_loadImage_of_held rfl admitted, hostMove_releaseReset_of_loaded rfl,
    rfl, registersReset_withRam (registersReset_applyReset b.core) _, rfl, read_imageRam e.bytes, ?first⟩
  case first =>
    rw [step_of_running rfl]
    exact congrArg (fun ir => exec (decode ir) _) (read_imageRam e.bytes 0)

/-- Settles O52: reset gives the reset values, a load keeps them, and a release or a step of the core is no case of a reset line
at 1 (R166). -/
theorem coreIsHeldAtResetValuesWhileResetIsHigh : Obligations.CoreIsHeldAtResetValuesWhileResetIsHigh := by
  rintro m b b' held_at_reset (moves | stepped) still_held
  · obtain ⟨-, rfl⟩ | ⟨held, ram, rfl⟩ | rfl := hostMove_cases moves
    · exact registersReset_applyReset b.core
    · exact registersReset_withRam (held_at_reset held) ram
    · cases still_held
  · obtain ⟨held, rfl⟩ | ⟨released, t, -, rfl⟩ := blockStep_cases stepped
    · exact held_at_reset held
    · exact absurd (released.symm.trans still_held) Bool.false_ne_true

/-- Settles O53: the one move that writes RAM needs the reset line at 1 (R58, R165). -/
theorem hostNeverWritesARunningCore : Obligations.HostNeverWritesARunningCore := by
  intro m b running
  refine ⟨fun b' moves => ?kept, hostMove_loadImage_of_running running⟩
  case kept =>
    obtain ⟨reset, -⟩ | ⟨held, -⟩ | rfl := hostMove_cases moves
    · exact .inl reset
    · exact absurd (running.symm.trans held) Bool.false_ne_true
    · exact .inr rfl

end Sys2Proof.Machine
end

section
/-! SUPPORT. Runs (40_cycle.md R88 to R91): a run ends at the HLT it executes, and the executor counts the core's own steps. -/

namespace Sys2Proof.Machine

/-- Settles O37, by induction on the number of steps (R153, D8). -/
theorem haltedCoreKeepsAllItsState : Obligations.HaltedCoreKeepsAllItsState := by
  intro k s halted
  induction k with
  | zero => exact run_zero s
  | succ k ih => rw [run_succ (step_of_halted halted), ih]

/-! The end of a run (R88, R90). -/

/-- The first halted state of a run is the one HLT has just set `Halted` in. -/
theorem exists_hlt_of_reaches_halted {s t : State} (running : s.halted = false) (reaches : Reaches s t)
    (halted : t.halted = true) : ∃ u, Reaches s u ∧ u.halted = false ∧ FetchesOneOf u [.hlt] := by
  induction reaches with
  | start => exact absurd (running.symm.trans halted) Bool.false_ne_true
  | @then_step t u reaches stepped ih =>
    cases t_halted : t.halted with
    | true => exact ih t_halted
    | false => exact ⟨t, reaches, t_halted, (onlyHltHalts t u t_halted stepped).mp halted⟩

/-- Settles O54: one way by induction on the run, the other by the step that executes the HLT (R88, R90). -/
theorem runEndsExactlyWhenHltIsExecuted : Obligations.RunEndsExactlyWhenHltIsExecuted := by
  intro s running
  constructor
  · rintro ⟨t, reaches, halted⟩
    exact exists_hlt_of_reaches_halted running reaches halted
  · rintro ⟨t, reaches, t_running, hlt⟩
    obtain ⟨u, stepped⟩ := everyStepCompletes t
    exact ⟨u, reaches.then_step stepped, (onlyHltHalts t u t_running stepped).mpr hlt⟩

/-! The executor (R90, R91). -/

theorem runBudget_zero (s : State) :
    runBudget 0 s = { final := s, stepsTaken := 0, haltedNaturally := s.halted } := rfl

/-- What a report says of the run of the core from `s` under a budget (R90, R91, D16). -/
structure ReportsRun (budget : Nat) (s : State) (r : RunReport) : Prop where
  reaches_final : Host.Core.run Sys2Proof.core r.stepsTaken s = .next r.final
  within_budget : r.stepsTaken ≤ budget
  halted_iff : r.haltedNaturally = true ↔ r.final.halted = true
  unfinished : r.haltedNaturally = false → r.stepsTaken = budget
  runs_before : ∀ k t, k < r.stepsTaken → Host.Core.run Sys2Proof.core k s = .next t → t.halted = false

/-- A halted core takes no step. -/
theorem reportsRun_of_halted {s : State} (halted : s.halted = true) (budget : Nat) :
    ReportsRun budget s { final := s, stepsTaken := 0, haltedNaturally := true } where
  reaches_final := run_zero s
  within_budget := Nat.zero_le budget
  halted_iff := iff_of_true rfl halted
  unfinished := nofun
  runs_before := nofun

/-- With no budget left the report is of `s` itself. -/
theorem reportsRun_zero {s : State} (running : s.halted = false) :
    ReportsRun 0 s { final := s, stepsTaken := 0, haltedNaturally := false } where
  reaches_final := run_zero s
  within_budget := Nat.le_refl 0
  halted_iff := iff_of_false nofun (by simp [running])
  unfinished _ := rfl
  runs_before := nofun

/-- A step of a running core comes before the steps of the report from the next state. -/
theorem ReportsRun.after_step {budget : Nat} {s t : State} {r : RunReport} (h : ReportsRun budget t r)
    (running : s.halted = false) (stepped : step s = .next t) :
    ReportsRun (budget + 1) s { r with stepsTaken := r.stepsTaken + 1 } where
  reaches_final := (run_succ stepped r.stepsTaken).trans h.reaches_final
  within_budget := Nat.succ_le_succ h.within_budget
  halted_iff := h.halted_iff
  unfinished unhalted := congrArg Nat.succ (h.unfinished unhalted)
  runs_before k u before at_k := by
    cases k with
    | zero =>
      cases at_k
      exact running
    | succ k =>
      rw [run_succ stepped] at at_k
      exact h.runs_before k u (Nat.lt_of_succ_lt_succ before) at_k

theorem reportsRun_runBudget (budget : Nat) (s : State) : ReportsRun budget s (runBudget budget s) := by
  induction budget generalizing s with
  | zero =>
    cases halted : s.halted with
    | true => rw [runBudget_of_halted halted]; exact reportsRun_of_halted halted 0
    | false => rw [runBudget_zero, halted]; exact reportsRun_zero halted
  | succ budget ih =>
    cases halted : s.halted with
    | true => rw [runBudget_of_halted halted]; exact reportsRun_of_halted halted (budget + 1)
    | false =>
      obtain ⟨t, stepped⟩ := everyStepCompletes s
      rw [runBudget_succ halted stepped]
      exact (ih t).after_step halted stepped

/-- Settles O55, by induction on the budget: a step of the core is a step of the report (R90, R91). -/
theorem executorTakesTheCoresOwnSteps : Obligations.ExecutorTakesTheCoresOwnSteps := by
  intro budget s
  have ⟨reaches_final, within_budget, halted_iff, unfinished, runs_before⟩ := reportsRun_runBudget budget s
  exact ⟨reaches_final, within_budget, halted_iff, unfinished, runs_before⟩

/-- Settles O56, by induction on the budget: each step of the JMP answers the state it began in (R91, D22). -/
theorem jumpToItselfUsesTheWholeBudget : Obligations.JumpToItselfUsesTheWholeBudget := by
  intro budget s running self_jump
  have stays : step s = .next s := by
    rw [step_of_running running, fetch, self_jump, exec_jmp, jumpTo_self]
  induction budget with
  | zero => rw [runBudget_zero, running]
  | succ budget ih => rw [runBudget_succ running stays, ih]

end Sys2Proof.Machine
end

section
/-! SUPPORT. The assembler keeps opcode and operand (30_encoding.md R69, R70), and the disassembler loses no byte (R70). -/

namespace Sys2Proof.Machine

/-! Assembly (R69, R70). -/

theorem operandNibble_number (env : List (String × Nat)) (v : Nat) :
    operandNibble env (.number v) = if v < 16 then .ok (BitVec.ofNat 4 v) else .error .operandTooLarge := rfl

theorem toNat_of_operandNibble_number {env : List (String × Nat)} {v : Nat} {n : Nibble}
    (fits : operandNibble env (.number v) = .ok n) : n.toNat = v := by
  rw [operandNibble_number] at fits
  split at fits
  · cases fits
    exact Nat.mod_eq_of_lt ‹v < 16›
  · cases fits

theorem assembleItem_none_inv {env : List (String × Nat)} {op : Opcode} {ir : Byte}
    (assembles : assembleItem env (.instruction op none) = .ok ir) : ir = encode (instrOf op 0) := by
  rw [assembleItem] at assembles
  split at assembles
  · cases assembles
  · cases assembles
    rfl

theorem assembleItem_some_inv {env : List (String × Nat)} {op : Opcode} {o : AsmOperand} {ir : Byte}
    (assembles : assembleItem env (.instruction op (some o)) = .ok ir) :
    ∃ n, operandNibble env o = .ok n ∧ ir = encode (instrOf op n) := by
  rw [assembleItem] at assembles
  split at assembles
  · split at assembles
    · cases assembles
      exact ⟨_, ‹_›, rfl⟩
    · cases assembles
  · cases assembles

theorem fields_of_assembleItem {env : List (String × Nat)} {op : Opcode} {o : Option AsmOperand} {ir : Byte}
    (assembles : assembleItem env (.instruction op o) = .ok ir) :
    opcodeOf (decode ir) = op ∧ (o = none → operandOf (decode ir) = 0) ∧
      ∀ v, o = some (.number v) → (operandOf (decode ir)).toNat = v := by
  cases o with
  | none =>
    obtain rfl := assembleItem_none_inv assembles
    rw [decode_encode, opcodeOf_instrOf, operandOf_instrOf]
    exact ⟨rfl, fun _ => rfl, nofun⟩
  | some o =>
    obtain ⟨n, operand, rfl⟩ := assembleItem_some_inv assembles
    rw [decode_encode, opcodeOf_instrOf, operandOf_instrOf]
    refine ⟨rfl, nofun, fun v number => ?_⟩
    cases number
    exact toNat_of_operandNibble_number operand

theorem assembleItem_number (env : List (String × Nat)) (op : Opcode) (v : Nat) :
    assembleItem env (.instruction op (some (.number v))) =
      if op.takesOperand = true then
        (if v < 16 then .ok (encode (instrOf op (BitVec.ofNat 4 v))) else .error .operandTooLarge)
      else .error .operandNotTaken := by
  rw [assembleItem, operandNibble_number]
  by_cases fits : v < 16
  · rw [if_pos fits, if_pos fits]
  · rw [if_neg fits, if_neg fits]

/-- Settles O58: the byte is the encoding of the line's own opcode and operand nibble, and decoding undoes encoding (D17). -/
theorem assembledLinesKeepOpcodeAndOperand : Obligations.AssembledLinesKeepOpcodeAndOperand := fun env op =>
  ⟨fun _ _ => fields_of_assembleItem, assembleItem_number env op⟩

/-! Disassembly (R70): the text is a mnemonic, then a text of the operand that begins with ' ' or ';' unless it is empty. -/

/-- What follows the mnemonic. -/
def operandText (takesOperand : Bool) (n : Nibble) : String :=
  if takesOperand then " " ++ n.toNat.repr
  else if n = 0 then ""
  else "; n=0x" ++ hexDigit n

theorem disassemble_eq (ir : Byte) :
    disassemble ir =
      spelling (opcodeOf (decode ir)) ++ operandText (opcodeOf (decode ir)).takesOperand (operandOf (decode ir)) := by
  rw [disassemble, operandText]
  split
  · rw [String.append_assoc]
  · split
    · rw [String.append_empty]
    · rw [String.append_assoc]

/-- The characters of a mnemonic, which end where the operand's text begins. -/
def inMnemonic (ch : Char) : Bool := ch != ' ' && ch != ';'

theorem inMnemonic_of_mem_spelling (op : Opcode) : ∀ ch ∈ (spelling op).toList, inMnemonic ch = true :=
  List.all_eq_true.mp (by cases op <;> rfl)

theorem takeWhile_operandText (takesOperand : Bool) (n : Nibble) :
    (operandText takesOperand n).toList.takeWhile inMnemonic = [] := by
  rw [operandText]
  split
  · rw [String.toList_append]; rfl
  · split
    · rfl
    · rw [String.toList_append]; rfl

theorem takeWhile_disassemble (ir : Byte) :
    (disassemble ir).toList.takeWhile inMnemonic = (spelling (opcodeOf (decode ir))).toList := by
  rw [disassemble_eq, String.toList_append, List.takeWhile_append_of_pos (inMnemonic_of_mem_spelling _),
    takeWhile_operandText, List.append_nil]

theorem spelling_injective : Function.Injective spelling := by
  have distinct : (allOpcodes.map spelling).Nodup := by decide
  exact fun op op' same => List.inj_on_of_nodup_map distinct (mem_allOpcodes op) (mem_allOpcodes op') same

theorem hexDigit_injective : Function.Injective hexDigit := by
  unfold Function.Injective
  decide

theorem operandText_ignored_of_ne {n : Nibble} (nonzero : n ≠ 0) : operandText false n = "; n=0x" ++ hexDigit n :=
  if_neg nonzero

theorem operandText_ignored_eq_empty_iff (n : Nibble) : operandText false n = "" ↔ n = 0 := by
  constructor
  · intro empty
    by_contra nonzero
    rw [operandText_ignored_of_ne nonzero] at empty
    simp at empty
  · rintro rfl
    rfl

theorem operandText_injective (takesOperand : Bool) : Function.Injective (operandText takesOperand) := by
  intro n n' same
  cases takesOperand with
  | true => exact BitVec.eq_of_toNat_eq (Nat.repr_injective ((String.append_right_inj " ").mp same))
  | false =>
    have same_zero : n = 0 ↔ n' = 0 := by rw [← operandText_ignored_eq_empty_iff, same, operandText_ignored_eq_empty_iff]
    by_cases zero : n = 0
    · rw [zero, same_zero.mp zero]
    · rw [operandText_ignored_of_ne zero, operandText_ignored_of_ne (mt same_zero.mpr zero)] at same
      exact hexDigit_injective ((String.append_right_inj "; n=0x").mp same)

/-- Settles O59: the mnemonic gives the opcode, what follows it the operand, and the two give the byte (R70). -/
theorem disassemblyLosesNoByte : Obligations.DisassemblyLosesNoByte := by
  intro ir ir' same
  have same_opcode : opcodeOf (decode ir) = opcodeOf (decode ir') := by
    apply spelling_injective
    rw [← String.toList_inj, ← takeWhile_disassemble, ← takeWhile_disassemble, same]
  have same_operand : operandOf (decode ir) = operandOf (decode ir') := by
    rw [disassemble_eq, disassemble_eq, same_opcode, String.append_right_inj] at same
    exact operandText_injective _ same
  apply decode_injective
  rw [← instrOf_opcodeOf_operandOf (decode ir), same_opcode, same_operand, instrOf_opcodeOf_operandOf]

end Sys2Proof.Machine
end
